-- ==== Sys2Proof/Word.lean ====
section
/-! DEFINITION. The machine word and the byte (00_scope.md R11, R12): `Word` is 0..65535, `Byte` is 0..255, both
unsigned. The spec has no signed reading of any value. -/

namespace Sys2Proof

/-- "Word: a 16-bit unsigned storage unit" (00_scope.md R15). -/
abbrev Word := BitVec 16

/-- A byte, 0..255 (00_scope.md R12). -/
abbrev Byte := BitVec 8

end Sys2Proof
end

