-- ==== Sys2Proof/Config.lean ====
section
/-! DEFINITION. The implementation parameters the spec leaves open (00_scope.md R3, R8, R9, R10). They are
"parameters of the step" (10_state.md R17), fixed for a machine: State carries one `Config`, which no step changes
(DESIGN CHOICE, log entry 2), so that every setting the spec allows can be run and every statement holds for all of them. -/

namespace Sys2Proof

/-- HIGH_RAW_MODE (00_scope.md R8): what the value resolver does with a raw operand in 32776..65535. -/
inductive HighRawMode where
  /-- The spec's default: the resolver raises INVALID_OPERAND. -/
  | fault
  /-- The behaviour the source reports for its reference: the raw word is used as a literal. -/
  | literal
deriving DecidableEq, Repr

/-- The parameters; `none` stands for `unbounded`. -/
structure Config where
  /-- HIGH_RAW_MODE (00_scope.md R8). -/
  highRawMode : HighRawMode
  /-- STACK_CAPACITY (00_scope.md R9). -/
  stackCapacity : Option Nat
  /-- MAX_LINE_BYTES (00_scope.md R10). -/
  maxLineBytes : Option Nat
deriving DecidableEq, Repr

/-- The spec's defaults: `fault`, `unbounded`, `unbounded` (00_scope.md R8, R9, R10). -/
def Config.standard : Config := ⟨.fault, none, none⟩

/-- STACK_CAPACITY is `unbounded` or a natural number N ≥ 1 (00_scope.md R9). -/
abbrev Config.wf (c : Config) : Prop := c.stackCapacity ≠ some 0

end Sys2Proof
end

