-- ==== Sys2Proof/Machine/State.lean ====
section
/-! DEFINITION. The machine's state as plain data (10_state.md), the reasons a step can stop, and the state after
reset (10_state.md R34). `mem`, `x`, `pc`, `stack`, `inq` and `status` are the spec's architectural state
(10_state.md R16), `out` its output trace (R33); `cfg` and `lineIn` are the model's own fields (log entries 2 and 3). -/

namespace Sys2Proof.Machine

/-- `status.run` (10_state.md R28). -/
inductive RunStatus where
  | running
  | halted
  | faulted
deriving DecidableEq, Repr

/-- `status.halt_cause` (10_state.md R28). -/
inductive HaltCause where
  /-- NONE. -/
  | none
  /-- HALT_INSTR: the run ended at `halt`. -/
  | haltInstr
  /-- RET_EMPTY: the run ended at `ret` with an empty stack. -/
  | retEmpty
deriving DecidableEq, Repr

/-- `status.fault_kind`: the kinds of the fatal faults (60_exceptions.md R97), in the order of their codes. -/
inductive FaultKind where
  /-- 0, NONE. -/
  | none
  /-- 1, INVALID_OPCODE. -/
  | invalidOpcode
  /-- 2, FETCH_OUT_OF_RANGE. -/
  | fetchOutOfRange
  /-- 3, INVALID_REGISTER. -/
  | invalidRegister
  /-- 4, INVALID_OPERAND. -/
  | invalidOperand
  /-- 5, STACK_EMPTY. -/
  | stackEmpty
  /-- 6, MEMORY_OUT_OF_RANGE. -/
  | memoryOutOfRange
  /-- 7, DIVIDE_BY_ZERO. -/
  | divideByZero
  /-- 8, INPUT_EXHAUSTED. -/
  | inputExhausted
  /-- 9, STACK_OVERFLOW. -/
  | stackOverflow
deriving DecidableEq, Repr

/-- The status record (10_state.md R28). Programs cannot see it. -/
structure Status where
  run : RunStatus
  haltCause : HaltCause
  faultKind : FaultKind
  faultPc : Word
  faultInfo : Word
deriving DecidableEq, Repr

/-- The host's answer to one line request (45_io_system.md R88). -/
inductive LineAnswer where
  /-- `Line(bs)`: one line of input, without its terminator. -/
  | line (bs : List Byte)
  /-- `Exhausted`: the source has no further line. -/
  | exhausted
deriving DecidableEq, Repr

/-- Memory: the bytes that are not 0, by address, in rising order (DESIGN CHOICE, log entry 1). Word `a` of the
spec's memory (10_state.md R31) is the byte at `2 * a` (its low half) and the byte at `2 * a + 1` (its high half). -/
abbrev Memory := List Host.Cell

/-- The state of the block. -/
structure State where
  /-- The memory (10_state.md R31). -/
  mem : Memory
  /-- The general registers r0 to r7 (10_state.md R18). -/
  x : Vector Word 8
  /-- The program counter (10_state.md R22). -/
  pc : Word
  /-- The stack, its top first (10_state.md R29). -/
  stack : List Word
  /-- The input queue, its head first (10_state.md R32). -/
  inq : List Byte
  /-- The status record (10_state.md R28). -/
  status : Status
  /-- The output trace in emission order (10_state.md R33). -/
  out : List Byte
  /-- MODEL's own (DESIGN CHOICE, log entry 3): the host's answers to the line requests to come, the oldest first. -/
  lineIn : List LineAnswer
  /-- MODEL's own (DESIGN CHOICE, log entry 2): the parameters of the step. -/
  cfg : Config
deriving DecidableEq, Repr

/-- Why `step` takes no step although nothing is missing from the model. -/
inductive Fault where
  /-- `step`: the run has ended. HALTED and FAULTED are absorbing, "no step is taken from them"
  (60_exceptions.md R102). Safe: the model stops where the block takes no step (DEDUCED, log entry 5). -/
  | runEnded
  /-- `input`: WAIT_INPUT. The queue is empty and the host has not answered the line request: "no step is taken"
  (45_io_system.md R94), a hang and not a final state (60_exceptions.md R103, U8). Safe: when the host answers
  (`State.answerLine`) the step can be taken (DEDUCED, log entry 4). -/
  | waitInput
deriving DecidableEq, Repr

/-- Where the model has no meaning to give. -/
inductive Refusal where
  /-- `exec`: an instruction with no meaning yet. No arm of `exec` answers so. Safe. -/
  | notModelled (mnemonic : String)
  /-- `input`: the host's line is longer than a finite MAX_LINE_BYTES, "a host-duty violation, for which the model has
  no move" (92_eei_decisions.md D16). Never under the default, `unbounded`. Safe: the model stops (DEDUCED, log entry 7). -/
  | lineTooLong
deriving DecidableEq, Repr

/-- A fatal fault about to be taken: its kind and its `fault_info` (60_exceptions.md R97). -/
structure Raised where
  kind : FaultKind
  info : Word
deriving DecidableEq, Repr

/-- The outcome of a step of this machine. -/
abbrev Result := Host.Outcome State Fault Refusal

/-- The status record after reset (10_state.md R28, R34). -/
def Status.reset : Status := ⟨.running, .none, .none, 0, 0⟩

/-- The machine right after reset (10_state.md R34, 70_reset_and_hazards.md R112), before an image is loaded.
`pc` and the status record are the spec's decisions D9 and D18 (UNVERIFIED, log entry 8). -/
def State.reset : State :=
  ⟨[], Vector.replicate 8 0, 0, [], [], Status.reset, [], [], Config.standard⟩

end Sys2Proof.Machine
end

