-- ==== Sys2Proof/Machine/Ops.lean ====
section
/-! DEFINITION. The named operations over memory, registers, stack, queues and status, written once and shared by all
meanings. TAKING A FAULT is `takeFault` (60_exceptions.md R100); there is no return from one (R102), so none stands
beside it. The graceful end is `terminate` (R101). -/

namespace Sys2Proof.Machine

/-! ### One field at a time -/

def State.withMem (s : State) (m : Memory) : State := { s with mem := m }
def State.withPc (s : State) (p : Word) : State := { s with pc := p }
def State.withStack (s : State) (st : List Word) : State := { s with stack := st }
def State.withInq (s : State) (q : List Byte) : State := { s with inq := q }
def State.withStatus (s : State) (st : Status) : State := { s with status := st }
def State.withOut (s : State) (o : List Byte) : State := { s with out := o }
def State.withLineIn (s : State) (l : List LineAnswer) : State := { s with lineIn := l }

/-- `x[d] <- v` (10_state.md R19). -/
def State.withReg (s : State) (d : Fin 8) (v : Word) : State := { s with x := s.x.set d.val v }

/-- `x[d]` (10_state.md R19). No register is hardwired (R18). -/
def State.reg (s : State) (d : Fin 8) : Word := s.x[d.val]

/-! ### Memory -/

/-- The number of words of memory (00_scope.md R7). -/
def memoryWords : Nat := 32768

/-- What a byte that memory does not list reads as: memory is zeroed at reset (10_state.md R34). -/
def unlistedByte : Byte := 0

/-- Read one byte. -/
def readByte : Memory → Nat → Byte
  | [], _ => unlistedByte
  | c :: m, a => if c.1 = a then c.2 else readByte m a

/-- Put a cell before the first one with a higher address. -/
def insertCell (a : Nat) (v : Byte) : Memory → Memory
  | [] => [(a, v)]
  | c :: m => if a < c.1 then (a, v) :: c :: m else c :: insertCell a v m

/-- Drop the cells at an address. -/
def eraseCell (a : Nat) : Memory → Memory
  | [] => []
  | c :: m => if c.1 = a then eraseCell a m else c :: eraseCell a m

/-- Write one byte. Writing what an unlisted byte reads as leaves the address unlisted (log entry 1). -/
def writeByte (m : Memory) (a : Nat) (v : Byte) : Memory :=
  if v = unlistedByte then eraseCell a m else insertCell a v (eraseCell a m)

/-- The canonical form (DESIGN CHOICE, log entry 1): addresses rise strictly, no listed byte is what an unlisted one
reads as, and every address lies in the 32768 words. -/
abbrev Memory.wf (m : Memory) : Prop :=
  m.Pairwise (fun c d => c.1 < d.1) ∧ ∀ c ∈ m, c.2 ≠ unlistedByte ∧ c.1 < 2 * memoryWords

/-- The low byte of a word. -/
def lowByte (w : Word) : Byte := w.extractLsb' 0 8

/-- The high byte of a word. -/
def highByte (w : Word) : Byte := w.extractLsb' 8 8

/-- `mem[a]`: the whole word at word address `a` (20_memory.md R40), its low byte first (log entry 1). -/
def readWord (m : Memory) (a : Nat) : Word := readByte m (2 * a + 1) ++ readByte m (2 * a)

/-- `mem[a] <- v` at word address `a`. -/
def writeWord (m : Memory) (a : Nat) (v : Word) : Memory :=
  writeByte (writeByte m (2 * a) (lowByte v)) (2 * a + 1) (highByte v)

/-- `mem[a], mem[a + 1], … <- ws`, only the words that exist. -/
def writeWords (m : Memory) (a : Nat) : List Word → Memory
  | [] => m
  | w :: ws => writeWords (if a < memoryWords then writeWord m a w else m) (a + 1) ws

/-- `MemRead(addr, 1)` (20_memory.md R37). -/
def memRead (s : State) (addr : Word) : Except Raised Word :=
  if addr.toNat < memoryWords then .ok (readWord s.mem addr.toNat) else .error ⟨.memoryOutOfRange, addr⟩

/-- `MemWrite(addr, 1, v)` (20_memory.md R37): the memory after it. -/
def memWrite (s : State) (addr v : Word) : Except Raised Memory :=
  if addr.toNat < memoryWords then .ok (writeWord s.mem addr.toNat v) else .error ⟨.memoryOutOfRange, addr⟩

/-! ### The stack (10_state.md R30) -/

/-- The stack holds as many words as STACK_CAPACITY allows, or more (DESIGN CHOICE, log entry 19). -/
def stackFull (s : State) : Bool :=
  match s.cfg.stackCapacity with
  | none => false
  | some n => n ≤ s.stack.length

/-- `StackPush(v)`: the stack after it, or STACK_OVERFLOW(0). -/
def stackPush (s : State) (v : Word) : Except Raised (List Word) :=
  if stackFull s then .error ⟨.stackOverflow, 0⟩ else .ok (v :: s.stack)

/-- `if StackEmpty() then raise STACK_EMPTY(0)` and then `StackPop()`: the top word and the rest
(41_data_movement.md R69). -/
def stackPop (s : State) : Except Raised (Word × List Word) :=
  match s.stack with
  | [] => .error ⟨.stackEmpty, 0⟩
  | v :: rest => .ok (v, rest)

/-! ### Faults and the end of a run -/

/-- The code of a fault kind (60_exceptions.md R97). -/
def FaultKind.code : FaultKind → Nat
  | .none => 0
  | .invalidOpcode => 1
  | .fetchOutOfRange => 2
  | .invalidRegister => 3
  | .invalidOperand => 4
  | .stackEmpty => 5
  | .memoryOutOfRange => 6
  | .divideByZero => 7
  | .inputExhausted => 8
  | .stackOverflow => 9

/-- TAKING A FAULT: `raise K(info)` in the step of the instruction at `pc` (60_exceptions.md R100). Only `status`
changes; `pc` keeps the address of the faulting instruction (R99, the spec's decision D6, UNVERIFIED, log entry 10).
There is no handler and no return. -/
def takeFault (f : Raised) (s : State) : State :=
  s.withStatus { s.status with run := .faulted, faultKind := f.kind, faultPc := s.pc, faultInfo := f.info }

/-- The graceful end: `terminate(cause)`, with `next` the address after the instruction (60_exceptions.md R101). -/
def terminate (cause : HaltCause) (next : Word) (s : State) : State :=
  (s.withPc next).withStatus { s.status with run := .halted, haltCause := cause }

/-- Go on with a checked value, or take the fault its check raised. Every check of an instruction is made so, before
its first write (00_scope.md R14, 60_exceptions.md R99). -/
def orFault {α : Type} (r : Except Raised α) (s : State) (k : α → Result) : Result :=
  match r with
  | .ok v => k v
  | .error f => .next (takeFault f s)

/-! ### The program counter -/

/-- `next`: the address after an instruction of `n` words (30_encoding.md R61). It wraps only in states no step executes
from (DESIGN CHOICE, log entry 17). -/
def State.nextPc (s : State) (n : Nat) : Word := s.pc + BitVec.ofNat 16 n

/-- `pc <- next` (30_encoding.md R62). -/
def State.advance (s : State) (n : Nat) : State := s.withPc (s.nextPc n)

/-! ### The character ports -/

/-- The terminator the block appends to a line: the newline, byte 10 (45_io_system.md R89; the number is the spec's
general knowledge G2, PRESUMED, log entry 11). -/
def newline : Byte := 10

/-- `Emit(b)` (45_io_system.md R90); it never blocks (the spec's decision D20, UNVERIFIED, log entry 18). -/
def emit (b : Byte) (s : State) : State := s.withOut (s.out ++ [b])

/-- `zext_16(b)` (00_scope.md R13). -/
def zext16 (b : Byte) : Word := b.setWidth 16

/-- A line of at most MAX_LINE_BYTES bytes (00_scope.md R10, 45_io_system.md R88). -/
def lineAccepted (s : State) (bs : List Byte) : Bool :=
  match s.cfg.maxLineBytes with
  | none => true
  | some n => bs.length ≤ n

/-! ### What the host may do (45_io_system.md R91) -/

/-- The host gives one more answer to a line request (45_io_system.md R88). -/
def State.answerLine (s : State) (a : LineAnswer) : State := s.withLineIn (s.lineIn ++ [a])

end Sys2Proof.Machine
end

