-- ==== Sys2Proof/Machine/Flags.lean ====
section
/-! DEFINITION. The block has no status flags and no condition codes (10_state.md R26). What stands in their place: the
words 1 and 0 that comparisons write into a register, and the test for 0 that the conditional branches make. -/

namespace Sys2Proof.Machine

/-- The word a comparison writes: exactly 1 or 0 (42_alu.md R70). -/
def truthWord (b : Bool) : Word := if b then 1 else 0

/-- `vb == vc` on full words (42_alu.md R71). -/
def wordsEqual (vb vc : Word) : Bool := vb.toNat = vc.toNat

/-- `vb > vc`, strict and unsigned (42_alu.md R72). -/
def wordGreater (vb vc : Word) : Bool := vc.toNat < vb.toNat

/-- A condition holds when it is any word but 0 (43_control_transfer.md R81, R82). -/
def conditionHolds (v : Word) : Bool := v.toNat ≠ 0

end Sys2Proof.Machine
end

