-- ==== Sys2Proof/Machine/Operands.lean ====
section
/-! DEFINITION. The two operand resolvers (30_encoding.md R52 to R56): every operand form the spec gives. Operands are
not extended, scaled or shifted (R56). -/

namespace Sys2Proof.Machine

/-- `resolveValue(w)` (30_encoding.md R54). The cases of 32776..65535 are the spec's decision D2. -/
def resolveValue (s : State) (w : Word) : Except Raised Word :=
  if w.toNat < 32768 then .ok w
  else if h : w.toNat - 32768 < 8 then .ok (s.reg ⟨w.toNat - 32768, h⟩)
  else match s.cfg.highRawMode with
    | .literal => .ok w
    | .fault => .error ⟨.invalidOperand, w⟩

/-- `resolveRegister(w)` (30_encoding.md R55): a register index, and no register is read. HIGH_RAW_MODE has no effect
here. -/
def resolveRegister (w : Word) : Except Raised (Fin 8) :=
  if w.toNat < 32768 then .error ⟨.invalidRegister, w⟩
  else if h : w.toNat - 32768 < 8 then .ok ⟨w.toNat - 32768, h⟩
  else .error ⟨.invalidRegister, w⟩

/-- Resolve a register operand, or take its fault. -/
def withDest (dst : Word) (s : State) (k : Fin 8 → Result) : Result := orFault (resolveRegister dst) s k

/-- Resolve a value operand, or take its fault. -/
def withValue (w : Word) (s : State) (k : Word → Result) : Result := orFault (resolveValue s w) s k

end Sys2Proof.Machine
end

