-- ==== Sys2Proof/Machine/Alu.lean ====
section
/-! DEFINITION. ALU instructions: eq, gt, add, mult, mod, and, or, not (42_alu.md). Results are computed exactly on
natural numbers and reduced modulo 32768 at the end (42_alu.md R70). -/

namespace Sys2Proof.Machine

/-- Reduction modulo 32768 (42_alu.md R70). -/
def reduce (n : Nat) : Word := BitVec.ofNat 16 (n % 32768)

/-- `(vb + vc) mod 32768` (42_alu.md R73). -/
def addWords (vb vc : Word) : Word := reduce (vb.toNat + vc.toNat)

/-- `(vb * vc) mod 32768` (42_alu.md R74). -/
def multWords (vb vc : Word) : Word := reduce (vb.toNat * vc.toNat)

/-- `(vb mod vc) mod 32768`, DIVIDE_BY_ZERO(0) when `vc` is 0 (42_alu.md R75, the spec's decisions D3 and D4,
UNVERIFIED, log entry 9). -/
def modWords (vb vc : Word) : Except Raised Word :=
  if vc.toNat = 0 then .error ⟨.divideByZero, 0⟩ else .ok (reduce (vb.toNat % vc.toNat))

/-- `(vb & vc) mod 32768` (42_alu.md R76, the spec's decision D4, UNVERIFIED, log entry 9). -/
def andWords (vb vc : Word) : Word := reduce (vb &&& vc).toNat

/-- `(vb | vc) mod 32768` (42_alu.md R77, the spec's decision D4, UNVERIFIED, log entry 9). -/
def orWords (vb vc : Word) : Word := reduce (vb ||| vc).toNat

/-- `(~vb) & 0x7FFF` (42_alu.md R78). -/
def notWord (vb : Word) : Word := ~~~vb &&& 0x7FFF

/-- The shape of format F3RVV in the ALU: resolve `dst`, `b`, `c` in this order, make the operation's own check, then
write one register (30_encoding.md R63). -/
def binaryOp (f : Word → Word → Except Raised Word) (dst b c : Word) (s : State) : Result :=
  withDest dst s fun d => withValue b s fun vb => withValue c s fun vc =>
    orFault (f vb vc) s fun v => .next ((s.advance 4).withReg d v)

/-- `eq dst, b, c` (42_alu.md R71). -/
def execEq (dst b c : Word) (s : State) : Result :=
  binaryOp (fun vb vc => .ok (truthWord (wordsEqual vb vc))) dst b c s

/-- `gt dst, b, c` (42_alu.md R72). -/
def execGt (dst b c : Word) (s : State) : Result :=
  binaryOp (fun vb vc => .ok (truthWord (wordGreater vb vc))) dst b c s

/-- `add dst, b, c` (42_alu.md R73). -/
def execAdd (dst b c : Word) (s : State) : Result := binaryOp (fun vb vc => .ok (addWords vb vc)) dst b c s

/-- `mult dst, b, c` (42_alu.md R74). -/
def execMult (dst b c : Word) (s : State) : Result := binaryOp (fun vb vc => .ok (multWords vb vc)) dst b c s

/-- `mod dst, b, c` (42_alu.md R75). -/
def execMod (dst b c : Word) (s : State) : Result := binaryOp modWords dst b c s

/-- `and dst, b, c` (42_alu.md R76). -/
def execAnd (dst b c : Word) (s : State) : Result := binaryOp (fun vb vc => .ok (andWords vb vc)) dst b c s

/-- `or dst, b, c` (42_alu.md R77). -/
def execOr (dst b c : Word) (s : State) : Result := binaryOp (fun vb vc => .ok (orWords vb vc)) dst b c s

/-- `not dst, b` (42_alu.md R78). -/
def execNot (dst b : Word) (s : State) : Result :=
  withDest dst s fun d => withValue b s fun vb => .next ((s.advance 3).withReg d (notWord vb))

end Sys2Proof.Machine
end

