-- ==== Sys2Proof/Machine/ControlTransfer.lean ====
section
/-! DEFINITION. Control transfer: jmp, jt, jf, call, ret (43_control_transfer.md). A target is an absolute word address
and is not checked when it is written (R79); a bad one faults at the next fetch. -/

namespace Sys2Proof.Machine

/-- `jmp a` (43_control_transfer.md R80). -/
def execJmp (a : Word) (s : State) : Result := withValue a s fun t => .next (s.withPc t)

/-- The shape of the conditional branches: both operands are resolved, taken or not (30_encoding.md R64, the spec's
decision D8). -/
def branchIf (taken : Word → Bool) (a b : Word) (s : State) : Result :=
  withValue a s fun v => withValue b s fun t => .next (if taken v then s.withPc t else s.advance 3)

/-- `jt a, b` (43_control_transfer.md R81). -/
def execJt (a b : Word) (s : State) : Result := branchIf conditionHolds a b s

/-- `jf a, b` (43_control_transfer.md R82). -/
def execJf (a b : Word) (s : State) : Result := branchIf (fun v => !conditionHolds v) a b s

/-- `call a` (43_control_transfer.md R83): pushes the address after its operand. -/
def execCall (a : Word) (s : State) : Result :=
  withValue a s fun t => orFault (stackPush s (s.nextPc 2)) s fun st => .next ((s.withStack st).withPc t)

/-- `ret` (43_control_transfer.md R84): an empty stack is a graceful end, not a fault. -/
def execRet (s : State) : Result :=
  match s.stack with
  | [] => .next (terminate .retEmpty (s.nextPc 1) s)
  | t :: rest => .next ((s.withStack rest).withPc t)

end Sys2Proof.Machine
end

