-- ==== Sys2Proof/Machine/DataMovement.lean ====
section
/-! DEFINITION. Data movement and stack instructions: set, push, pop (41_data_movement.md). Values are moved whole,
never reduced. -/

namespace Sys2Proof.Machine

/-- `set dst, b` (41_data_movement.md R67). -/
def execSet (dst b : Word) (s : State) : Result :=
  withDest dst s fun d => withValue b s fun v => .next ((s.advance 3).withReg d v)

/-- `push a` (41_data_movement.md R68). -/
def execPush (a : Word) (s : State) : Result :=
  withValue a s fun v => orFault (stackPush s v) s fun st => .next ((s.advance 2).withStack st)

/-- `pop dst` (41_data_movement.md R69): the register check comes before the empty check. -/
def execPop (dst : Word) (s : State) : Result :=
  withDest dst s fun d => orFault (stackPop s) s fun p => .next (((s.advance 2).withStack p.2).withReg d p.1)

end Sys2Proof.Machine
end

