-- ==== Sys2Proof/Machine/IoSystem.lean ====
section
/-! DEFINITION. I/O and system instructions: halt, out, in, noop (45_io_system.md). -/

namespace Sys2Proof.Machine

/-- `halt` (45_io_system.md R92). -/
def execHalt (s : State) : Result := .next (terminate .haltInstr (s.nextPc 1) s)

/-- `out a` (45_io_system.md R93): emits `v mod 256`. -/
def execOut (a : Word) (s : State) : Result :=
  withValue a s fun v => .next (emit (lowByte v) (s.advance 2))

/-- Dequeue one byte of the queue `q` into register `d`: "Fatal fault if still empty after refill"
(45_io_system.md R94). -/
def dequeueInto (d : Fin 8) (q : List Byte) (s : State) : Result :=
  match q with
  | [] => .next (takeFault ⟨.inputExhausted, 0⟩ s)
  | b :: rest => .next (((s.advance 2).withInq rest).withReg d (zext16 b))

/-- `in dst` (45_io_system.md R94): the register check comes before any line request (decision D12); a queue that
holds a byte is served with no request; an answered request takes the answer off `lineIn`. -/
def execInput (dst : Word) (s : State) : Result :=
  withDest dst s fun d =>
    match s.inq, s.lineIn with
    | b :: q, _ => dequeueInto d (b :: q) s
    | [], [] => .fault .waitInput
    | [], .exhausted :: later => dequeueInto d [] (s.withLineIn later)
    | [], .line bs :: later =>
      if lineAccepted s bs then dequeueInto d (bs ++ [newline]) (s.withLineIn later) else .refused .lineTooLong

/-- `noop` (45_io_system.md R95). -/
def execNoop (s : State) : Result := .next (s.advance 1)

end Sys2Proof.Machine
end

