-- ==== Sys2Proof/Machine/MemoryAccess.lean ====
section
/-! DEFINITION. Memory access instructions: rmem, wmem (44_memory_access.md). The one addressing mode is absolute word
addressing (R85). -/

namespace Sys2Proof.Machine

/-- `rmem dst, b` (44_memory_access.md R86). -/
def execRmem (dst b : Word) (s : State) : Result :=
  withDest dst s fun d => withValue b s fun addr =>
    orFault (memRead s addr) s fun v => .next ((s.advance 3).withReg d v)

/-- `wmem a, b` (44_memory_access.md R87): `a` is a value operand, the address. -/
def execWmem (a b : Word) (s : State) : Result :=
  withValue a s fun addr => withValue b s fun v =>
    orFault (memWrite s addr v) s fun m => .next ((s.advance 3).withMem m)

end Sys2Proof.Machine
end

