-- ==== Sys2Proof/Syntax.lean ====
section
/-! DEFINITION. The instructions: one constructor per row of spec/opcode_table.json (30_encoding.md R57). A decoded
instruction carries "its raw operand words verbatim" (20_memory.md R48, 30_encoding.md R61): no operand is resolved
here. A position called `dst` is a register operand, every other one a value operand (00_scope.md R14,
30_encoding.md R52). -/

namespace Sys2Proof

/-- The 22 instructions (30_encoding.md R57). -/
inductive Instr where
  | halt
  | set (dst b : Word)
  | push (a : Word)
  | pop (dst : Word)
  | eq (dst b c : Word)
  | gt (dst b c : Word)
  | jmp (a : Word)
  | jt (a b : Word)
  | jf (a b : Word)
  | add (dst b c : Word)
  | mult (dst b c : Word)
  | mod (dst b c : Word)
  | and (dst b c : Word)
  | or (dst b c : Word)
  | not (dst b : Word)
  | rmem (dst b : Word)
  | wmem (a b : Word)
  | call (a : Word)
  | ret
  | out (a : Word)
  /-- The table's `in` (its name is a keyword of Lean). -/
  | input (dst : Word)
  | noop
deriving DecidableEq, Repr

end Sys2Proof
end

