-- ==== Sys2Proof/Machine/Dispatch.lean ====
section
/-! DEFINITION. One arm per constructor of Instr, each a call of the meaning of its own. -/

namespace Sys2Proof.Machine

def exec (i : Instr) (s : State) : Host.Outcome State Fault Refusal :=
  match i with
  -- data movement and stack
  | .set dst b => Sys2Proof.Machine.execSet dst b s
  | .push a => Sys2Proof.Machine.execPush a s
  | .pop dst => Sys2Proof.Machine.execPop dst s
  -- ALU
  | .eq dst b c => Sys2Proof.Machine.execEq dst b c s
  | .gt dst b c => Sys2Proof.Machine.execGt dst b c s
  | .add dst b c => Sys2Proof.Machine.execAdd dst b c s
  | .mult dst b c => Sys2Proof.Machine.execMult dst b c s
  | .mod dst b c => Sys2Proof.Machine.execMod dst b c s
  | .and dst b c => Sys2Proof.Machine.execAnd dst b c s
  | .or dst b c => Sys2Proof.Machine.execOr dst b c s
  | .not dst b => Sys2Proof.Machine.execNot dst b s
  -- control transfer
  | .jmp a => Sys2Proof.Machine.execJmp a s
  | .jt a b => Sys2Proof.Machine.execJt a b s
  | .jf a b => Sys2Proof.Machine.execJf a b s
  | .call a => Sys2Proof.Machine.execCall a s
  | .ret => Sys2Proof.Machine.execRet s
  -- memory access
  | .rmem dst b => Sys2Proof.Machine.execRmem dst b s
  | .wmem a b => Sys2Proof.Machine.execWmem a b s
  -- I/O and system
  | .halt => Sys2Proof.Machine.execHalt s
  | .out a => Sys2Proof.Machine.execOut a s
  | .input dst => Sys2Proof.Machine.execInput dst s
  | .noop => Sys2Proof.Machine.execNoop s

end Sys2Proof.Machine
end

