-- ==== Sys2Proof/Decode.lean ====
section
/-! DEFINITION. The decoder (30_encoding.md R50, R51, R57, R58, R61) and, after it, the encoder. `decode` is total on
lists of words, `decodeBytes` on lists of bytes; each rejects by name. An instruction is one opcode word, matched whole
(mask 0xFFFF), and a fixed number of whole operand words; there are no sub-word fields. -/

namespace Sys2Proof

/-- Why a list of words is no instruction. -/
inductive DecodeError where
  /-- The opcode word is outside 0..21 (30_encoding.md R58). -/
  | invalidOpcode (op : Word)
  /-- Word number `k` of the instruction (0 is the opcode) is not there. The machine reports it as
  FETCH_OUT_OF_RANGE at that word's address (30_encoding.md R61). -/
  | missingWord (k : Nat)
deriving DecidableEq, Repr

/-- An instruction and the words after it, or the reason there is none. -/
abbrev Decoded := Except DecodeError (Instr × List Word)

/-- Format F0: no operand word (30_encoding.md R50). -/
def decodeF0 (i : Instr) (ws : List Word) : Decoded := .ok (i, ws)

/-- Formats F1V and F1R: one operand word (30_encoding.md R50). -/
def decodeF1 (mk : Word → Instr) : List Word → Decoded
  | a :: ws => .ok (mk a, ws)
  | [] => .error (.missingWord 1)

/-- Formats F2RV and F2VV: two operand words (30_encoding.md R50). -/
def decodeF2 (mk : Word → Word → Instr) : List Word → Decoded
  | a :: b :: ws => .ok (mk a b, ws)
  | [_] => .error (.missingWord 2)
  | [] => .error (.missingWord 1)

/-- Format F3RVV: three operand words (30_encoding.md R50). -/
def decodeF3 (mk : Word → Word → Word → Instr) : List Word → Decoded
  | a :: b :: c :: ws => .ok (mk a b c, ws)
  | [_, _] => .error (.missingWord 3)
  | [_] => .error (.missingWord 2)
  | [] => .error (.missingWord 1)

/-- The opcode map (30_encoding.md R57): the operand words that follow the opcode word `op`. -/
def decodeOperands (op : Word) (ws : List Word) : Decoded :=
  match op.toNat with
  | 0 => decodeF0 .halt ws
  | 1 => decodeF2 .set ws
  | 2 => decodeF1 .push ws
  | 3 => decodeF1 .pop ws
  | 4 => decodeF3 .eq ws
  | 5 => decodeF3 .gt ws
  | 6 => decodeF1 .jmp ws
  | 7 => decodeF2 .jt ws
  | 8 => decodeF2 .jf ws
  | 9 => decodeF3 .add ws
  | 10 => decodeF3 .mult ws
  | 11 => decodeF3 .mod ws
  | 12 => decodeF3 .and ws
  | 13 => decodeF3 .or ws
  | 14 => decodeF2 .not ws
  | 15 => decodeF2 .rmem ws
  | 16 => decodeF2 .wmem ws
  | 17 => decodeF1 .call ws
  | 18 => decodeF0 .ret ws
  | 19 => decodeF1 .out ws
  | 20 => decodeF1 .input ws
  | 21 => decodeF0 .noop ws
  | _ => .error (.invalidOpcode op)

/-- The decoder (30_encoding.md R61): the opcode word is checked before any operand word is asked for. -/
def decode : List Word → Decoded
  | [] => .error (.missingWord 0)
  | op :: ws => decodeOperands op ws

/-- The words of a list of bytes in the image's format: little-endian, a trailing odd byte dropped
(70_reset_and_hazards.md R114; the formula is the spec's general knowledge G3, PRESUMED, log entry 12). -/
def wordsOfBytes : List Byte → List Word
  | lo :: hi :: bs => (hi ++ lo) :: wordsOfBytes bs
  | _ => []

/-- The decoder on bytes: the first instruction of the words they form. -/
def decodeBytes (bs : List Byte) : Decoded := decode (wordsOfBytes bs)

/-! ### The encoder -/

/-- The opcode (30_encoding.md R57). -/
def Instr.opcode : Instr → Nat
  | .halt => 0
  | .set _ _ => 1
  | .push _ => 2
  | .pop _ => 3
  | .eq _ _ _ => 4
  | .gt _ _ _ => 5
  | .jmp _ => 6
  | .jt _ _ => 7
  | .jf _ _ => 8
  | .add _ _ _ => 9
  | .mult _ _ _ => 10
  | .mod _ _ _ => 11
  | .and _ _ _ => 12
  | .or _ _ _ => 13
  | .not _ _ => 14
  | .rmem _ _ => 15
  | .wmem _ _ => 16
  | .call _ => 17
  | .ret => 18
  | .out _ => 19
  | .input _ => 20
  | .noop => 21

/-- The raw operand words in position order (30_encoding.md R50). -/
def Instr.operands : Instr → List Word
  | .halt => []
  | .set dst b => [dst, b]
  | .push a => [a]
  | .pop dst => [dst]
  | .eq dst b c => [dst, b, c]
  | .gt dst b c => [dst, b, c]
  | .jmp a => [a]
  | .jt a b => [a, b]
  | .jf a b => [a, b]
  | .add dst b c => [dst, b, c]
  | .mult dst b c => [dst, b, c]
  | .mod dst b c => [dst, b, c]
  | .and dst b c => [dst, b, c]
  | .or dst b c => [dst, b, c]
  | .not dst b => [dst, b]
  | .rmem dst b => [dst, b]
  | .wmem a b => [a, b]
  | .call a => [a]
  | .ret => []
  | .out a => [a]
  | .input dst => [dst]
  | .noop => []

/-- The words of an instruction: the opcode word, then the operand words (30_encoding.md R50). -/
def encode (i : Instr) : List Word := BitVec.ofNat 16 i.opcode :: i.operands

/-- The arity column of the opcode map (30_encoding.md R57), for an opcode in 0..21. -/
def arity (opcode : Nat) : Nat :=
  match opcode with
  | 0 | 18 | 21 => 0
  | 2 | 3 | 6 | 17 | 19 | 20 => 1
  | 1 | 7 | 8 | 14 | 15 | 16 => 2
  | 4 | 5 | 9 | 10 | 11 | 12 | 13 => 3
  | _ => 0

/-- The longest instruction has four words (30_encoding.md R50). -/
def maxWords : Nat := 4

/-- The `n` 16-bit words of the number `w`, the least significant first. -/
def wordsOfNat : Nat → Nat → List Word
  | 0, _ => []
  | n + 1, w => BitVec.ofNat 16 w :: wordsOfNat n (w / 65536)

/-- The words that stand for an instruction of `nbits` bits `w`, numbered as spec/opcode_table.json numbers them: bits
15..0 are the first word; the bits above `nbits` are zero, up to the longest instruction. -/
def tableWords (nbits w : Nat) : List Word := wordsOfNat maxWords (w % 2 ^ nbits)

/-- What the decoder reads from the instruction whose bits are `w`. -/
def decodeTableWord (nbits w : Nat) : Option Instr :=
  match decode (tableWords nbits w) with
  | .ok (i, _) => some i
  | .error _ => none

end Sys2Proof
end

