-- ==== Sys2Proof/Machine/Fetch.lean ====
section
/-! DEFINITION. Fetching an instruction (30_encoding.md R60, R61), the waiting condition (45_io_system.md R94) and the
loading of an image (70_reset_and_hazards.md R114, R115). -/

namespace Sys2Proof.Machine

/-- The words of memory from word address `p` on, at most `n` of them, ending where memory ends: what the decoder can
fetch (30_encoding.md R60). Reads have no side effect (20_memory.md R41), so reading a word the decoder does not ask for
changes nothing (DEDUCED, log entry 13). -/
def fetchWords (m : Memory) : Nat → Nat → List Word
  | 0, _ => []
  | n + 1, p => if p < memoryWords then readWord m p :: fetchWords m n (p + 1) else []

/-- The fault a failed decode at address `p` raises (30_encoding.md R58, R60, R61). -/
def decodeFault (p : Nat) : DecodeError → Raised
  | .invalidOpcode op => ⟨.invalidOpcode, op⟩
  | .missingWord k => ⟨.fetchOutOfRange, BitVec.ofNat 16 (p + k)⟩

/-- `decode(pc)` (30_encoding.md R61). -/
def fetchDecode (s : State) : Except Raised Instr :=
  match decode (fetchWords s.mem maxWords s.pc.toNat) with
  | .ok (i, _) => .ok i
  | .error e => .error (decodeFault s.pc.toNat e)

/-- The interface condition WAIT_INPUT (10_state.md R28, 45_io_system.md R88, R94): the block runs, the instruction at
`pc` is an `in` with a valid destination, the queue is empty and the host has not answered. It is computed, not stored:
"WAIT_INPUT is not a value of `run`". -/
def State.waitInput (s : State) : Bool :=
  match fetchDecode s with
  | .ok (.input dst) =>
    decide (s.status.run = .running) && (resolveRegister dst).toBool && s.inq.isEmpty && s.lineIn.isEmpty
  | _ => false

/-- Loading an image (70_reset_and_hazards.md R114, R115): its words from address 0 on, no other state. `none` for an
image of more than 32768 words, which "cannot be loaded" (decision D14, log entry 12). -/
def loadImage (image : List Byte) (s : State) : Option State :=
  if (wordsOfBytes image).length ≤ memoryWords then some (s.withMem (writeWords s.mem 0 (wordsOfBytes image)))
  else none

/-- Put words into memory where the next instruction is fetched. -/
def placeAtPc (s : State) (ws : List Word) : State := s.withMem (writeWords s.mem s.pc.toNat ws)

end Sys2Proof.Machine
end

