-- ==== Sys2Proof/Machine/Step.lean ====
section
/-! DEFINITION. One step (30_encoding.md R62): taken only while `status.run = RUNNING`, it decodes at `pc` and executes,
or takes the fault of the decode. -/

namespace Sys2Proof.Machine

/-- One step of the block (30_encoding.md R62). HALTED and FAULTED are absorbing (60_exceptions.md R102). -/
def step (s : State) : Host.Outcome State Fault Refusal :=
  match s.status.run with
  | .running => orFault (fetchDecode s) s fun i => exec i s
  | .halted => .fault .runEnded
  | .faulted => .fault .runEnded

/-- `s` with the instruction of `nbits` bits `w` (numbered as spec/opcode_table.json numbers them, the bits above zero)
where the next step fetches: in memory from `pc` on. Words past the end of memory are not stored, and the status is not
touched (DESIGN CHOICE, log entry 15). -/
def State.withFetchWord (s : State) (nbits w : Nat) : State := placeAtPc s (tableWords nbits w)

end Sys2Proof.Machine
end

