-- ==== Sys2Proof/WellFormed.lean ====
section
/-! DEFINITION. Well-formed instructions: the ones the spec's assembler writes (30_encoding.md R65). A register
operand names a register, and a value operand is a literal or a register reference (30_encoding.md R52, R53). The
decoder does not ask for it: operand words "are never illegal at decode time" (30_encoding.md R59), and an ill-formed
instruction runs into a fault, or in the literal mode goes on, when its operands are resolved (DESIGN CHOICE, log entry 14). -/

namespace Sys2Proof

/-- A raw word that is a register reference, 32768..32775 (30_encoding.md R53). -/
def isRegisterWord (w : Word) : Bool := 32768 ≤ w.toNat && w.toNat ≤ 32775

/-- A raw word that is a literal or a register reference, 0..32775 (30_encoding.md R53). -/
def isValueWord (w : Word) : Bool := w.toNat ≤ 32775

/-- Every operand has the class its position asks for (30_encoding.md R52, R65). -/
def Instr.wellFormed : Instr → Bool
  | .halt => true
  | .set dst b => isRegisterWord dst && isValueWord b
  | .push a => isValueWord a
  | .pop dst => isRegisterWord dst
  | .eq dst b c => isRegisterWord dst && isValueWord b && isValueWord c
  | .gt dst b c => isRegisterWord dst && isValueWord b && isValueWord c
  | .jmp a => isValueWord a
  | .jt a b => isValueWord a && isValueWord b
  | .jf a b => isValueWord a && isValueWord b
  | .add dst b c => isRegisterWord dst && isValueWord b && isValueWord c
  | .mult dst b c => isRegisterWord dst && isValueWord b && isValueWord c
  | .mod dst b c => isRegisterWord dst && isValueWord b && isValueWord c
  | .and dst b c => isRegisterWord dst && isValueWord b && isValueWord c
  | .or dst b c => isRegisterWord dst && isValueWord b && isValueWord c
  | .not dst b => isRegisterWord dst && isValueWord b
  | .rmem dst b => isRegisterWord dst && isValueWord b
  | .wmem a b => isValueWord a && isValueWord b
  | .call a => isValueWord a
  | .ret => true
  | .out a => isValueWord a
  | .input dst => isRegisterWord dst
  | .noop => true

end Sys2Proof
end

