-- ==== Sys2Proof/Safety.lean ====
section
/-! DEFINITION. The words the statements are written in, taken from the spec's rules and not from the model's own
functions: what an operand word stands for, what a faulted state is, when a run has ended, and what counts as a sound
state. -/

namespace Sys2Proof.Safety

open Sys2Proof.Machine

/-! ### Operands (30_encoding.md R53 to R55) -/

/-- The word `w` is the register reference of register `d`: 32768 + d (30_encoding.md R53). -/
def NamesRegister (w : Word) (d : Fin 8) : Prop := w.toNat = 32768 + d.val

/-- The word `w` is no register reference (30_encoding.md R55). -/
def NotRegister (w : Word) : Prop := w.toNat < 32768 ∨ 32775 < w.toNat

/-- As a value operand, `w` stands for `v` (30_encoding.md R54): a literal for itself, a register reference for the
register's content, an out-of-range word in the literal mode for itself. -/
def HasValue (s : State) (w v : Word) : Prop :=
  (w.toNat < 32768 ∧ v = w) ∨
  (∃ d : Fin 8, NamesRegister w d ∧ v = s.reg d) ∨
  (32775 < w.toNat ∧ s.cfg.highRawMode = .literal ∧ v = w)

/-- As a value operand, `w` stands for nothing: an out-of-range word in the fault mode (30_encoding.md R54). -/
def NoValue (s : State) (w : Word) : Prop := 32775 < w.toNat ∧ s.cfg.highRawMode = .fault

/-! ### Faults and ends (60_exceptions.md) -/

/-- `s` after a fatal fault of kind `k` (60_exceptions.md R99, R100): the status record says FAULTED, the kind, the
address of the faulting instruction and the datum, and nothing else differs. -/
def faultedAt (s : State) (k : FaultKind) (info : Word) : State :=
  { s with status := ⟨.faulted, s.status.haltCause, k, s.pc, info⟩ }

/-- `s` after a graceful end with the given cause (60_exceptions.md R101); `p` is the address after the instruction. -/
def haltedAt (s : State) (cause : HaltCause) (p : Word) : State :=
  { s with pc := p, status := ⟨.halted, cause, s.status.faultKind, s.status.faultPc, s.status.faultInfo⟩ }

/-- A run has ended (70_reset_and_hazards.md R118). -/
def Ended (s : State) : Prop := s.status.run = .halted ∨ s.status.run = .faulted

/-- A run has ended gracefully (70_reset_and_hazards.md R118). -/
def EndedGracefully (s : State) : Prop := s.status.run = .halted

/-- `t` is reached from `s` by steps. -/
inductive Reaches : State → State → Prop where
  | here (s : State) : Reaches s s
  | later {s t u : State} : step s = .next t → Reaches t u → Reaches s u

/-- A run from `s` is safe: it never ends in a fatal fault. -/
def SafeFrom (s : State) : Prop := ∀ t, Reaches s t → t.status.run ≠ .faulted

/-- The block waits for its host (45_io_system.md R88, R94): it runs, the instruction at `pc` is an `in` whose
destination is a register, the queue is empty, and the host has not answered (no answer stands in `lineIn`, log entry 3). -/
def Waiting (s : State) : Prop :=
  s.status.run = .running ∧ (∃ dst d, fetchDecode s = .ok (.input dst) ∧ NamesRegister dst d) ∧
  s.inq = [] ∧ s.lineIn = []

/-! ### Sound states -/

/-- The stack respects STACK_CAPACITY (00_scope.md R9). -/
def StackBounded (s : State) : Prop := ∀ n, s.cfg.stackCapacity = some n → s.stack.length ≤ n

/-- The fields of the status record fit together (10_state.md R28, R34, 60_exceptions.md R100, R101). -/
def StatusCoherent (st : Status) : Prop :=
  match st.run with
  | .running => st = ⟨.running, .none, .none, 0, 0⟩
  | .halted => st.haltCause ≠ .none ∧ st.faultKind = .none ∧ st.faultPc = 0 ∧ st.faultInfo = 0
  | .faulted => st.haltCause = .none ∧ st.faultKind ≠ .none

/-- The invariant of every run: memory in its canonical form, the stack within its capacity, a coherent status, and
parameters the spec allows. -/
def Inv (s : State) : Prop := Memory.wf s.mem ∧ StackBounded s ∧ StatusCoherent s.status ∧ s.cfg.wf

/-- The stack has room for one more word (10_state.md R30). -/
def StackHasRoom (s : State) : Prop := ∀ n, s.cfg.stackCapacity = some n → s.stack.length < n

/-- The stack holds STACK_CAPACITY words (10_state.md R30). -/
def StackIsFull (s : State) : Prop := ∃ n, s.cfg.stackCapacity = some n ∧ s.stack.length = n

/-! ### Roles of the operands (10_state.md R20) -/

/-- The raw destination word of the instructions that write a register (10_state.md R20). -/
def destination : Instr → Option Word
  | .set dst _ | .pop dst | .eq dst _ _ | .gt dst _ _ | .add dst _ _ | .mult dst _ _ | .mod dst _ _
  | .and dst _ _ | .or dst _ _ | .not dst _ | .rmem dst _ | .input dst => some dst
  | .halt | .push _ | .jmp _ | .jt _ _ | .jf _ _ | .wmem _ _ | .call _ | .ret | .out _ | .noop => none

/-- The raw value operands in position order (10_state.md R20, 30_encoding.md R57). -/
def valueOperands : Instr → List Word
  | .halt | .pop _ | .ret | .input _ | .noop => []
  | .push a | .jmp a | .call a | .out a => [a]
  | .set _ b | .not _ b | .rmem _ b => [b]
  | .jt a b | .jf a b | .wmem a b => [a, b]
  | .eq _ b c | .gt _ b c | .add _ b c | .mult _ b c | .mod _ b c | .and _ b c | .or _ b c => [b, c]

/-- The fault table for the faults raised at execution (60_exceptions.md R97): which instruction may raise which kind, in
what case, and with which `fault_info`. STACK_OVERFLOW takes in a stack longer than STACK_CAPACITY, which no run reaches
(log entry 19, DESIGN CHOICE; R30 says exactly N words), and the answer of INPUT_EXHAUSTED is the first one of `lineIn`
(log entry 3, DESIGN CHOICE). -/
def MayRaise (s : State) (i : Instr) (info : Word) : FaultKind → Prop
  | .invalidRegister => destination i = some info ∧ NotRegister info
  | .invalidOperand => info ∈ valueOperands i ∧ NoValue s info
  | .stackEmpty => (∃ dst, i = .pop dst) ∧ s.stack = [] ∧ info = 0
  | .memoryOutOfRange =>
    ((∃ dst b, i = .rmem dst b ∧ HasValue s b info) ∨ (∃ a b, i = .wmem a b ∧ HasValue s a info)) ∧
      32768 ≤ info.toNat
  | .divideByZero => (∃ dst b c, i = .mod dst b c ∧ HasValue s c 0) ∧ info = 0
  | .inputExhausted => (∃ dst, i = .input dst) ∧ s.inq = [] ∧ (∃ l, s.lineIn = .exhausted :: l) ∧ info = 0
  | .stackOverflow =>
    ((∃ a, i = .push a) ∨ (∃ a, i = .call a)) ∧ (∃ n, s.cfg.stackCapacity = some n ∧ n ≤ s.stack.length) ∧ info = 0
  | .none | .invalidOpcode | .fetchOutOfRange => False

/-! ### The resolution faults, format by format, in position order (30_encoding.md R63, 60_exceptions.md R98) -/

/-- Format F1R: the register operand. -/
def RegisterFault1 (mk : Word → Instr) : Prop :=
  ∀ s dst, NotRegister dst → exec (mk dst) s = .next (faultedAt s .invalidRegister dst)

/-- Format F1V: the value operand. -/
def ValueFault1 (mk : Word → Instr) : Prop :=
  ∀ s a, NoValue s a → exec (mk a) s = .next (faultedAt s .invalidOperand a)

/-- Format F2VV: the first value operand, then the second. -/
def ValueFaults2 (mk : Word → Word → Instr) : Prop :=
  (∀ s a b, NoValue s a → exec (mk a b) s = .next (faultedAt s .invalidOperand a)) ∧
  (∀ s a b va, HasValue s a va → NoValue s b → exec (mk a b) s = .next (faultedAt s .invalidOperand b))

/-- Format F2RV: the register operand, then the value operand. -/
def ResolutionFaults2 (mk : Word → Word → Instr) : Prop :=
  (∀ s dst b, NotRegister dst → exec (mk dst b) s = .next (faultedAt s .invalidRegister dst)) ∧
  (∀ s dst b d, NamesRegister dst d → NoValue s b → exec (mk dst b) s = .next (faultedAt s .invalidOperand b))

/-- Format F3RVV: the register operand, then the two value operands. -/
def ResolutionFaults3 (mk : Word → Word → Word → Instr) : Prop :=
  (∀ s dst b c, NotRegister dst → exec (mk dst b c) s = .next (faultedAt s .invalidRegister dst)) ∧
  (∀ s dst b c d, NamesRegister dst d → NoValue s b →
    exec (mk dst b c) s = .next (faultedAt s .invalidOperand b)) ∧
  (∀ s dst b c d vb, NamesRegister dst d → HasValue s b vb → NoValue s c →
    exec (mk dst b c) s = .next (faultedAt s .invalidOperand c))

/-- A binary ALU instruction: with its operands resolved it writes `f vb vc` into its destination, moves `pc` past its
four words and changes nothing else (42_alu.md). -/
def BinaryResult (mk : Word → Word → Word → Instr) (f : Word → Word → Word) : Prop :=
  ∀ s dst b c d vb vc, NamesRegister dst d → HasValue s b vb → HasValue s c vc →
    exec (mk dst b c) s = .next { s with pc := s.pc + 4, x := s.x.set d.val (f vb vc) }

/-! ### What a step may not look at (10_state.md R28, R33) -/

/-- Two states that agree but for the status record and the output trace. -/
def SameButRecords (s s' : State) : Prop :=
  s.mem = s'.mem ∧ s.x = s'.x ∧ s.pc = s'.pc ∧ s.stack = s'.stack ∧ s.inq = s'.inq ∧ s.lineIn = s'.lineIn ∧
  s.cfg = s'.cfg

end Sys2Proof.Safety
end

