-- ==== Sys2Proof/Certificates/Slice0/Obligations.lean ====
section
/-! DEFINITION. The statements for the provers, rule by rule of spec/. Each docstring names the rule it formalises, or
says that the clause is the spec's own decision (92_eei_decisions.md) or the model's choice (a log entry). -/

open Sys2Proof Sys2Proof.Machine Sys2Proof.Safety

/-! ### Encoding and decoding (30_encoding.md) -/

/-- Decoding and encoding agree, both ways: a list of words decodes to an instruction exactly when it begins with that
instruction's words, and what is left is what follows them (30_encoding.md §1, §3, §4). Every operand word at every
value. -/
def Obligations.DecodeEncodeAgree : Prop :=
  ∀ (ws : List Word) (i : Instr) (rest : List Word), decode ws = .ok (i, rest) ↔ ws = encode i ++ rest

/-- 30_encoding.md R51: the opcode word alone tells the length, 1 + arity. -/
def Obligations.LengthFromOpcodeWord : Prop :=
  (∀ (op : Word) (ws rest : List Word) (i : Instr), decode (op :: ws) = .ok (i, rest) →
    (op :: ws).length = 1 + arity op.toNat + rest.length) ∧
  (∀ i : Instr, (encode i).length = 1 + arity i.opcode) ∧
  (∀ n : Nat, arity n =
    if n = 1 ∨ n = 7 ∨ n = 8 ∨ n = 14 ∨ n = 15 ∨ n = 16 then 2
    else if n = 2 ∨ n = 3 ∨ n = 6 ∨ n = 17 ∨ n = 19 ∨ n = 20 then 1
    else if n = 4 ∨ n = 5 ∨ n = 9 ∨ n = 10 ∨ n = 11 ∨ n = 12 ∨ n = 13 then 3 else 0)

/-- A few instructions written out word by word from the opcode map (30_encoding.md R57, 95_test_vectors.md). -/
def Obligations.KnownWordsDecode : Prop :=
  decode [1#16, 32769#16, 300#16] = .ok (.set 32769#16 300#16, []) ∧
  decode [3#16, 32770#16] = .ok (.pop 32770#16, []) ∧
  decode [9#16, 32768#16, 32767#16, 2#16, 0#16] = .ok (.add 32768#16 32767#16 2#16, [0#16]) ∧
  decode [8#16, 0#16, 9#16] = .ok (.jf 0#16 9#16, []) ∧
  decode [16#16, 100#16, 72#16] = .ok (.wmem 100#16 72#16, []) ∧
  decode [20#16, 32768#16] = .ok (.input 32768#16, []) ∧
  decode [18#16] = .ok (.ret, []) ∧
  decode [22#16] = .error (.invalidOpcode 22#16)

/-- 30_encoding.md R59: every opcode word is one of the 22 or illegal, and operand words are never illegal at decode
time. -/
def Obligations.OperandWordsNeverIllegal : Prop :=
  (∀ (op : Word) (ws : List Word), op.toNat ≤ 21 → arity op.toNat ≤ ws.length →
    ∃ i, decode (op :: ws) = .ok (i, ws.drop (arity op.toNat)) ∧ i.opcode = op.toNat ∧
      i.operands = ws.take (arity op.toNat)) ∧
  (∀ (op : Word) (ws : List Word), 21 < op.toNat → decode (op :: ws) = .error (.invalidOpcode op))

/-! ### The step (30_encoding.md §4, §5) -/

/-- A step runs the decoded instruction (30_encoding.md §5, phase 1 to 4): when the block runs and the words of an
instruction stand in memory from `pc` on, the step is the instruction's meaning, which itself moves `pc` past the
instruction's words. -/
def Obligations.StepRunsTheDecodedInstruction : Prop :=
  ∀ (s : State) (i : Instr), s.status.run = .running → s.pc.toNat + (encode i).length ≤ 32768 →
    (∀ k (h : k < (encode i).length), readWord s.mem (s.pc.toNat + k) = (encode i)[k]) →
    step s = exec i s

/-- 30_encoding.md R58: an opcode word of 22 or more raises INVALID_OPCODE(op), no other state changes, and no operand
word is fetched: at address 32767, where a fetch of an operand word would fault, the fault is the same one. -/
def Obligations.IllegalOpcodeFaults : Prop :=
  ∀ (s : State), s.status.run = .running → s.pc.toNat < 32768 → 21 < (readWord s.mem s.pc.toNat).toNat →
    step s = .next (faultedAt s .invalidOpcode (readWord s.mem s.pc.toNat))

/-- A fetch beyond memory (30_encoding.md §4; that it is a fault of its own is the spec's decision D5): with `pc` out of
range FETCH_OUT_OF_RANGE(pc), and with an operand word beyond 32767 FETCH_OUT_OF_RANGE(32768), the address of the first
word that is not there. -/
def Obligations.FetchBeyondMemoryFaults : Prop :=
  (∀ (s : State), s.status.run = .running → 32768 ≤ s.pc.toNat →
    step s = .next (faultedAt s .fetchOutOfRange s.pc)) ∧
  (∀ (s : State), s.status.run = .running → s.pc.toNat < 32768 → (readWord s.mem s.pc.toNat).toNat ≤ 21 →
    32768 ≤ s.pc.toNat + arity (readWord s.mem s.pc.toNat).toNat →
    step s = .next (faultedAt s .fetchOutOfRange 32768#16))

/-- No step is taken from HALTED or FAULTED (60_exceptions.md §3), so nothing but the state itself is reached. That `step`
says so by the stop `runEnded` is the model's reading (log entry 5, DEDUCED). -/
def Obligations.EndedRunsTakeNoStep : Prop :=
  ∀ (s : State), Ended s → step s = .fault .runEnded ∧ ∀ t, Reaches s t → t = s

/-! ### The operand resolvers (30_encoding.md §2) -/

/-- `resolveValue` (30_encoding.md §2): the four cases. Those of an out-of-range word are the spec's decision D2. -/
def Obligations.ResolveValueCases : Prop :=
  ∀ (s : State) (w : Word),
    (w.toNat < 32768 → resolveValue s w = .ok w) ∧
    (∀ d : Fin 8, w.toNat = 32768 + d.val → resolveValue s w = .ok (s.reg d)) ∧
    (32775 < w.toNat → s.cfg.highRawMode = .literal → resolveValue s w = .ok w) ∧
    (32775 < w.toNat → s.cfg.highRawMode = .fault → resolveValue s w = .error ⟨.invalidOperand, w⟩)

/-- 30_encoding.md R55: `resolveRegister`. It takes no state, so it reads no register and no mode. -/
def Obligations.ResolveRegisterCases : Prop :=
  ∀ (w : Word),
    (∀ d : Fin 8, w.toNat = 32768 + d.val → resolveRegister w = .ok d) ∧
    (w.toNat < 32768 ∨ 32775 < w.toNat → resolveRegister w = .error ⟨.invalidRegister, w⟩)

/-- An instruction as the assembler writes it (30_encoding.md §6, the spec's decision D15) never faults on the
resolution of an operand, in either mode. -/
def Obligations.WellFormedOperandsResolve : Prop :=
  ∀ (i : Instr) (s t : State), i.wellFormed = true → s.status.run = .running → exec i s = .next t →
    t.status.run = .faulted → t.status.faultKind ≠ .invalidRegister ∧ t.status.faultKind ≠ .invalidOperand

/-! ### Data movement (41_data_movement.md) -/

/-- 41_data_movement.md R67, `set`. -/
def Obligations.SetInstruction : Prop :=
  (∀ dst b, encode (.set dst b) = [1, dst, b]) ∧
  (∀ s dst b d v, NamesRegister dst d → HasValue s b v →
    exec (.set dst b) s = .next { s with pc := s.pc + 3, x := s.x.set d.val v }) ∧
  ResolutionFaults2 .set

/-- 41_data_movement.md R68, `push`. -/
def Obligations.PushInstruction : Prop :=
  (∀ a, encode (.push a) = [2, a]) ∧
  (∀ s a v, HasValue s a v → StackHasRoom s →
    exec (.push a) s = .next { s with pc := s.pc + 2, stack := v :: s.stack }) ∧
  ValueFault1 .push ∧
  (∀ s a v, HasValue s a v → StackIsFull s → exec (.push a) s = .next (faultedAt s .stackOverflow 0))

/-- 41_data_movement.md R69, `pop`: the register check comes before the empty check. -/
def Obligations.PopInstruction : Prop :=
  (∀ dst, encode (.pop dst) = [3, dst]) ∧
  (∀ s dst d v rest, NamesRegister dst d → s.stack = v :: rest →
    exec (.pop dst) s = .next { s with pc := s.pc + 2, stack := rest, x := s.x.set d.val v }) ∧
  RegisterFault1 .pop ∧
  (∀ s dst d, NamesRegister dst d → s.stack = [] → exec (.pop dst) s = .next (faultedAt s .stackEmpty 0))

/-! ### ALU (42_alu.md) -/

/-- 42_alu.md R71, `eq`: full 16-bit words are compared. -/
def Obligations.EqInstruction : Prop :=
  (∀ dst b c, encode (.eq dst b c) = [4, dst, b, c]) ∧
  BinaryResult .eq (fun vb vc => if vb = vc then 1 else 0) ∧
  ResolutionFaults3 .eq

/-- 42_alu.md R72, `gt`: strict and unsigned. -/
def Obligations.GtInstruction : Prop :=
  (∀ dst b c, encode (.gt dst b c) = [5, dst, b, c]) ∧
  BinaryResult .gt (fun vb vc => if vc.toNat < vb.toNat then 1 else 0) ∧
  ResolutionFaults3 .gt

/-- 42_alu.md R73, `add`. -/
def Obligations.AddInstruction : Prop :=
  (∀ dst b c, encode (.add dst b c) = [9, dst, b, c]) ∧
  BinaryResult .add (fun vb vc => BitVec.ofNat 16 ((vb.toNat + vc.toNat) % 32768)) ∧
  ResolutionFaults3 .add

/-- 42_alu.md R74, `mult`. -/
def Obligations.MultInstruction : Prop :=
  (∀ dst b c, encode (.mult dst b c) = [10, dst, b, c]) ∧
  BinaryResult .mult (fun vb vc => BitVec.ofNat 16 ((vb.toNat * vc.toNat) % 32768)) ∧
  ResolutionFaults3 .mult

/-- `mod` (42_alu.md §3). DIVIDE_BY_ZERO on a divisor of 0 is the spec's decision D3, the outer reduction its decision
D4. -/
def Obligations.ModInstruction : Prop :=
  (∀ dst b c, encode (.mod dst b c) = [11, dst, b, c]) ∧
  (∀ s dst b c d vb vc, NamesRegister dst d → HasValue s b vb → HasValue s c vc → vc ≠ 0 →
    exec (.mod dst b c) s = .next
      { s with pc := s.pc + 4, x := s.x.set d.val (BitVec.ofNat 16 (vb.toNat % vc.toNat % 32768)) }) ∧
  ResolutionFaults3 .mod ∧
  (∀ s dst b c d vb, NamesRegister dst d → HasValue s b vb → HasValue s c 0 →
    exec (.mod dst b c) s = .next (faultedAt s .divideByZero 0))

/-- `and` (42_alu.md §4): bitwise, bit 15 of the result 0 (the spec's decision D4). -/
def Obligations.AndInstruction : Prop :=
  (∀ dst b c, encode (.and dst b c) = [12, dst, b, c]) ∧
  BinaryResult .and (fun vb vc => BitVec.ofNat 16 ((vb &&& vc).toNat % 32768)) ∧
  ResolutionFaults3 .and

/-- `or` (42_alu.md §4): bitwise, bit 15 of the result 0 (the spec's decision D4). -/
def Obligations.OrInstruction : Prop :=
  (∀ dst b c, encode (.or dst b c) = [13, dst, b, c]) ∧
  BinaryResult .or (fun vb vc => BitVec.ofNat 16 ((vb ||| vc).toNat % 32768)) ∧
  ResolutionFaults3 .or

/-- 42_alu.md R78, `not`: `(~vb) & 0x7FFF`, which equals `32767 − (vb mod 32768)`. -/
def Obligations.NotInstruction : Prop :=
  (∀ dst b, encode (.not dst b) = [14, dst, b]) ∧
  (∀ s dst b d vb, NamesRegister dst d → HasValue s b vb →
    exec (.not dst b) s = .next
      { s with pc := s.pc + 3, x := s.x.set d.val (BitVec.ofNat 16 (32767 - vb.toNat % 32768)) }) ∧
  (∀ vb : Word, ~~~vb &&& 0x7FFF#16 = BitVec.ofNat 16 (32767 - vb.toNat % 32768)) ∧
  ResolutionFaults2 .not

/-! ### Control transfer (43_control_transfer.md) -/

/-- 43_control_transfer.md R80, `jmp`: the target is written unchecked. -/
def Obligations.JmpInstruction : Prop :=
  (∀ a, encode (.jmp a) = [6, a]) ∧
  (∀ s a t, HasValue s a t → exec (.jmp a) s = .next { s with pc := t }) ∧
  ValueFault1 .jmp

/-- 43_control_transfer.md R81, `jt`: any word but 0 is true; the target is resolved even when the branch is not taken
(the spec's decision D8). -/
def Obligations.JtInstruction : Prop :=
  (∀ a b, encode (.jt a b) = [7, a, b]) ∧
  (∀ s a b v t, HasValue s a v → HasValue s b t → v ≠ 0 → exec (.jt a b) s = .next { s with pc := t }) ∧
  (∀ s a b t, HasValue s a 0 → HasValue s b t → exec (.jt a b) s = .next { s with pc := s.pc + 3 }) ∧
  ValueFaults2 .jt

/-- 43_control_transfer.md R82, `jf`: only the word 0 is false; the target is resolved even when the branch is not taken
(the spec's decision D8). -/
def Obligations.JfInstruction : Prop :=
  (∀ a b, encode (.jf a b) = [8, a, b]) ∧
  (∀ s a b t, HasValue s a 0 → HasValue s b t → exec (.jf a b) s = .next { s with pc := t }) ∧
  (∀ s a b v t, HasValue s a v → HasValue s b t → v ≠ 0 →
    exec (.jf a b) s = .next { s with pc := s.pc + 3 }) ∧
  ValueFaults2 .jf

/-- 43_control_transfer.md R83, `call`: pushes the address after its operand, then jumps. -/
def Obligations.CallInstruction : Prop :=
  (∀ a, encode (.call a) = [17, a]) ∧
  (∀ s a t, HasValue s a t → StackHasRoom s →
    exec (.call a) s = .next { s with pc := t, stack := (s.pc + 2) :: s.stack }) ∧
  ValueFault1 .call ∧
  (∀ s a t, HasValue s a t → StackIsFull s → exec (.call a) s = .next (faultedAt s .stackOverflow 0))

/-- 43_control_transfer.md R84, `ret`: pops into `pc`, or ends the run gracefully on an empty stack. -/
def Obligations.RetInstruction : Prop :=
  encode .ret = [18] ∧
  (∀ s t rest, s.stack = t :: rest → exec .ret s = .next { s with pc := t, stack := rest }) ∧
  (∀ s, s.stack = [] → exec .ret s = .next (haltedAt s .retEmpty (s.pc + 1)))

/-! ### Memory access (44_memory_access.md) -/

/-- 44_memory_access.md R86, `rmem`: the word is stored verbatim. -/
def Obligations.RmemInstruction : Prop :=
  (∀ dst b, encode (.rmem dst b) = [15, dst, b]) ∧
  (∀ s dst b d addr, NamesRegister dst d → HasValue s b addr → addr.toNat < 32768 →
    exec (.rmem dst b) s = .next { s with pc := s.pc + 3, x := s.x.set d.val (readWord s.mem addr.toNat) }) ∧
  ResolutionFaults2 .rmem ∧
  (∀ s dst b d addr, NamesRegister dst d → HasValue s b addr → 32768 ≤ addr.toNat →
    exec (.rmem dst b) s = .next (faultedAt s .memoryOutOfRange addr))

/-- 44_memory_access.md R87, `wmem`: the word at the address becomes the data, every other word of memory and all other
state but `pc` stay; `a` is a value operand, so no register is written. -/
def Obligations.WmemInstruction : Prop :=
  (∀ a b, encode (.wmem a b) = [16, a, b]) ∧
  (∀ s a b addr v, HasValue s a addr → HasValue s b v → addr.toNat < 32768 →
    ∃ m, exec (.wmem a b) s = .next { s with pc := s.pc + 3, mem := m } ∧
      readWord m addr.toNat = v ∧ ∀ k, k ≠ addr.toNat → readWord m k = readWord s.mem k) ∧
  ValueFaults2 .wmem ∧
  (∀ s a b addr v, HasValue s a addr → HasValue s b v → 32768 ≤ addr.toNat →
    exec (.wmem a b) s = .next (faultedAt s .memoryOutOfRange addr))

/-! ### I/O and system (45_io_system.md) -/

/-- 45_io_system.md R92, `halt`. -/
def Obligations.HaltInstruction : Prop :=
  encode .halt = [0] ∧ ∀ s, exec .halt s = .next (haltedAt s .haltInstr (s.pc + 1))

/-- 45_io_system.md R93, `out`: the low 8 bits. -/
def Obligations.OutInstruction : Prop :=
  (∀ a, encode (.out a) = [19, a]) ∧
  (∀ s a v, HasValue s a v →
    exec (.out a) s = .next { s with pc := s.pc + 2, out := s.out ++ [BitVec.ofNat 8 (v.toNat % 256)] }) ∧
  ValueFault1 .out

/-- `in` (45_io_system.md §2; the order of the register check and the request is the spec's decision D12, the
`Exhausted` answer its decision D11). That the terminator is byte 10 is the spec's general knowledge G2 (log entry 11,
PRESUMED). How the host's answers are held is the model's own (log entry 3), and so is what
becomes of a waiting step (log entry 4) and of a line beyond a finite MAX_LINE_BYTES (log entry 7). -/
def Obligations.InInstruction : Prop :=
  (∀ dst, encode (.input dst) = [20, dst]) ∧
  (∀ s dst d b rest, NamesRegister dst d → s.inq = b :: rest →
    exec (.input dst) s = .next { s with pc := s.pc + 2, inq := rest, x := s.x.set d.val (b.setWidth 16) }) ∧
  (∀ s dst d bs later b rest, NamesRegister dst d → s.inq = [] → s.lineIn = .line bs :: later →
    (∀ n, s.cfg.maxLineBytes = some n → bs.length ≤ n) → bs ++ [10] = b :: rest →
    exec (.input dst) s = .next
      { s with pc := s.pc + 2, inq := rest, lineIn := later, x := s.x.set d.val (b.setWidth 16) }) ∧
  RegisterFault1 .input ∧
  (∀ s dst d later, NamesRegister dst d → s.inq = [] → s.lineIn = .exhausted :: later →
    exec (.input dst) s = .next (faultedAt { s with lineIn := later } .inputExhausted 0)) ∧
  (∀ s dst d, NamesRegister dst d → s.inq = [] → s.lineIn = [] → exec (.input dst) s = .fault .waitInput) ∧
  (∀ s dst d bs later n, NamesRegister dst d → s.inq = [] → s.lineIn = .line bs :: later →
    s.cfg.maxLineBytes = some n → n < bs.length → exec (.input dst) s = .refused .lineTooLong)

/-- 45_io_system.md R95, `noop`. -/
def Obligations.NoopInstruction : Prop :=
  encode .noop = [21] ∧ ∀ s, exec .noop s = .next { s with pc := s.pc + 1 }

/-! ### Frames: what every one of the 22 instructions leaves alone -/

/-- Registers: no instruction changes a register but the one its destination operand names (10_state.md §2). Covers all
22 instructions. -/
def Obligations.RegisterFrame : Prop :=
  ∀ (i : Instr) (s t : State) (j : Fin 8), exec i s = .next t →
    (∀ dst, destination i = some dst → ¬ NamesRegister dst j) → t.reg j = s.reg j

/-- Memory: no instruction but `wmem` changes a byte, and `wmem` changes no byte but the two of the word its first operand
stands for; when that operand stands for nothing or the address is out of range, it changes none (20_memory.md §1).
The spec's memory has words and no bytes; that word `addr` is the bytes 2 * addr and 2 * addr + 1 is the model's choice
(log entry 1, DESIGN CHOICE). Covers all 22 instructions. -/
def Obligations.MemoryFrame : Prop :=
  (∀ (i : Instr) (s t : State), exec i s = .next t → (∀ a b, i ≠ .wmem a b) →
    ∀ k, readByte t.mem k = readByte s.mem k) ∧
  (∀ (a b : Word) (s t : State), exec (.wmem a b) s = .next t →
    (∀ addr, HasValue s a addr → ∀ k, k ≠ 2 * addr.toNat → k ≠ 2 * addr.toNat + 1 →
      readByte t.mem k = readByte s.mem k) ∧
    ((NoValue s a ∨ ∃ addr, HasValue s a addr ∧ 32768 ≤ addr.toNat) →
      ∀ k, readByte t.mem k = readByte s.mem k))

/-- Stack: only push, pop, call and ret change it, by one word at the top (10_state.md §6). Covers all 22
instructions. -/
def Obligations.StackFrame : Prop :=
  ∀ (i : Instr) (s t : State), exec i s = .next t → t.stack = s.stack ∨
    (((∃ a, i = .push a) ∨ (∃ a, i = .call a)) ∧ ∃ v, t.stack = v :: s.stack) ∨
    (((∃ dst, i = .pop dst) ∨ i = .ret) ∧ ∃ v, s.stack = v :: t.stack)

/-- 10_state.md R32: only `in` changes the queue; it appends a whole line plus its terminator when the queue is empty,
and removes one byte from the head on every successful execution. That the terminator is byte 10 is the spec's general
knowledge G2 (log entry 11, PRESUMED). `lineIn` is the model's own record of the host's answers (log entry 3).
Covers all 22 instructions. -/
def Obligations.InputQueueFrame : Prop :=
  ∀ (i : Instr) (s t : State), s.status.run = .running → exec i s = .next t →
    ((∀ dst, i ≠ .input dst) → t.inq = s.inq ∧ t.lineIn = s.lineIn) ∧
    (∀ dst, i = .input dst → t.status = s.status →
      (∃ b, s.inq = b :: t.inq ∧ t.lineIn = s.lineIn) ∨
      (s.inq = [] ∧ ∃ bs b, s.lineIn = .line bs :: t.lineIn ∧ bs ++ [10] = b :: t.inq)) ∧
    (∀ dst, i = .input dst → t.status ≠ s.status → t.inq = s.inq)

/-- 10_state.md R33: each `out` that does not fault appends exactly one byte, and nothing else changes the trace. Covers
all 22 instructions. -/
def Obligations.OutputTraceFrame : Prop :=
  ∀ (i : Instr) (s t : State), exec i s = .next t →
    ((∀ a, i ≠ .out a) → t.out = s.out) ∧
    (∀ a, i = .out a → (∃ b, t.out = s.out ++ [b] ∧ t.status = s.status) ∨
      (t.out = s.out ∧ ∃ info, t = faultedAt s .invalidOperand info))

/-- Status and parameters (10_state.md §1, §5, 60_exceptions.md §3): the status record changes only when the instruction
takes a fault or ends the run, and the parameters never change. That the parameters are a field `cfg` of State is the
model's choice (log entry 2), and so is the field `lineIn`, from which a fault may take an `Exhausted` answer off (log
entry 3). Covers all 22 instructions. -/
def Obligations.StatusFrame : Prop :=
  ∀ (i : Instr) (s t : State), exec i s = .next t → t.cfg = s.cfg ∧
    (t.status = s.status ∨
      (∃ k info, k ≠ .none ∧ t = faultedAt { s with lineIn := t.lineIn } k info) ∨
      (i = .halt ∧ t = haltedAt s .haltInstr (s.pc + 1)) ∨
      (i = .ret ∧ s.stack = [] ∧ t = haltedAt s .retEmpty (s.pc + 1)))

/-- Program counter (10_state.md §3): a step that decodes and does not fault leaves `pc` at the address after the
instruction, at most 32768, unless the instruction is a control transfer. -/
def Obligations.PcAdvancesOrTransfers : Prop :=
  ∀ (s t : State) (i : Instr), s.status.run = .running → fetchDecode s = .ok i → step s = .next t →
    t.status.run ≠ .faulted →
    (t.pc.toNat = s.pc.toNat + (encode i).length ∧ t.pc.toNat ≤ 32768) ∨
    (∃ a, i = .jmp a ∧ HasValue s a t.pc) ∨
    (∃ a b v, i = .jt a b ∧ HasValue s a v ∧ v ≠ 0 ∧ HasValue s b t.pc) ∨
    (∃ a b, i = .jf a b ∧ HasValue s a 0 ∧ HasValue s b t.pc) ∨
    (∃ a, i = .call a ∧ HasValue s a t.pc) ∨
    (i = .ret ∧ s.stack = t.pc :: t.stack)

/-! ### Whole-machine rules -/

/-- Faults are precise (60_exceptions.md §2; the spec's decision D6): a step that ends FAULTED changes only the status
record, with `fault_pc` the address of the faulting instruction. The one host answer a fault may use up is the
`Exhausted` of an `in` (the model's own field `lineIn`, log entry 3). -/
def Obligations.FaultsArePrecise : Prop :=
  ∀ (s t : State), step s = .next t → t.status.run = .faulted →
    ∃ k info later, t = faultedAt { s with lineIn := later } k info ∧ k ≠ .none ∧
      (later = s.lineIn ∨ (k = .inputExhausted ∧ s.lineIn = .exhausted :: later))

/-- Who raises which fault (60_exceptions.md §1; the codes and names are the spec's decision D5): a fault of execution is
raised only by the instructions and in the cases its row of the fault table lists, with that row's `fault_info`.
`MayRaise` says two cases in the model's words: a stack of STACK_CAPACITY words or more overflows, where 10_state.md R30
says exactly that many (log entry 19, DESIGN CHOICE; no run reaches more), and an `Exhausted` answer is the first one of
the model's field `lineIn` (log entry 3, DESIGN CHOICE). -/
def Obligations.FaultsOnlyAsListed : Prop :=
  ∀ (i : Instr) (s t : State), s.status.run = .running → exec i s = .next t → t.status.run = .faulted →
    MayRaise s i t.status.faultInfo t.status.faultKind

/-- Graceful ends (60_exceptions.md §3): a step ends HALTED only at `halt` or at `ret` with an empty stack, with the
matching cause, and changes only `pc` and the status record. The value of `pc` is the spec's decision D13. -/
def Obligations.HaltedOnlyByHaltOrEmptyRet : Prop :=
  ∀ (s t : State), step s = .next t → EndedGracefully t →
    (fetchDecode s = .ok .halt ∧ t = haltedAt s .haltInstr (s.pc + 1)) ∨
    (fetchDecode s = .ok .ret ∧ s.stack = [] ∧ t = haltedAt s .retEmpty (s.pc + 1))

/-- ALU results (42_alu.md §1; for `mod`, `and` and `or` with operands of 32768 or more the spec's decision D4): an ALU
instruction that does not fault leaves a value below 32768 in its destination, and `eq` and `gt` leave 0 or 1. -/
def Obligations.AluResultsInRange : Prop :=
  ∀ (s t : State) (dst b c : Word) (d : Fin 8) (i : Instr), s.status.run = .running → exec i s = .next t →
    t.status.run = .running → NamesRegister dst d →
    ((i = .add dst b c ∨ i = .mult dst b c ∨ i = .mod dst b c ∨ i = .and dst b c ∨ i = .or dst b c ∨ i = .not dst b) →
      (t.reg d).toNat < 32768) ∧
    ((i = .eq dst b c ∨ i = .gt dst b c) → t.reg d = 0 ∨ t.reg d = 1)

/-- A running block always has a step (30_encoding.md §5, 60_exceptions.md §3): every state of every program goes on to a
next state, but for an `in` that waits for its host (log entry 4) and a host line longer than a finite MAX_LINE_BYTES
(the spec's decision D16, log entry 7). The host's answers are the model's field `lineIn` (log entry 3). -/
def Obligations.RunningBlockSteps : Prop :=
  ∀ (s : State), s.status.run = .running →
    (∃ t, step s = .next t) ∨
    (Waiting s ∧ step s = .fault .waitInput) ∨
    (step s = .refused .lineTooLong ∧ s.inq = [] ∧
      ∃ n bs later, s.cfg.maxLineBytes = some n ∧ s.lineIn = .line bs :: later ∧ n < bs.length)

/-- Waiting for the host (45_io_system.md §1, §2, 60_exceptions.md §3; that no step is taken is log entry 4's reading):
WAIT_INPUT shows exactly while no step can be taken for want of an answer, the block is then neither HALTED nor FAULTED,
and an answered line lets the step be taken. The answers are the model's field `lineIn`, given by `answerLine` (log entry
3, DESIGN CHOICE); that the terminator is byte 10 is the spec's general knowledge G2 (log entry 11, PRESUMED). -/
def Obligations.WaitingEndsWithAnswer : Prop :=
  ∀ (s : State),
    (s.waitInput = true ↔ Waiting s) ∧
    (step s = .fault .waitInput ↔ Waiting s) ∧
    (Waiting s → ¬ Ended s) ∧
    (∀ bs, Waiting s → (∀ n, s.cfg.maxLineBytes = some n → bs.length ≤ n) →
      ∃ t, step (s.answerLine (.line bs)) = .next t ∧ t.status = s.status ∧ bs ++ [10] = (bs ++ [10]).take 1 ++ t.inq) ∧
    (Waiting s → ∃ t, step (s.answerLine .exhausted) = .next t ∧ t.status.faultKind = .inputExhausted)

/-- Programs see neither the status record nor the output trace (10_state.md §5, §8): two states that differ only there
do the same, and emit the same bytes. The two states also agree in the model's own fields `cfg` and `lineIn` (log
entries 2 and 3). Covers all 22 instructions. -/
def Obligations.RecordsAreNotRead : Prop :=
  ∀ (i : Instr) (s s' : State), SameButRecords s s' →
    (∀ t, exec i s = .next t → ∃ t', exec i s' = .next t' ∧ SameButRecords t t' ∧
      ∃ e, t.out = s.out ++ e ∧ t'.out = s'.out ++ e) ∧
    (∀ f, exec i s = .fault f → exec i s' = .fault f) ∧
    (∀ r, exec i s = .refused r → exec i s' = .refused r)

/-- A step keeps the invariant: canonical memory (log entry 1), a stack within STACK_CAPACITY, a coherent status record
(10_state.md §5, §6), and parameters the spec allows (00_scope.md §4, held in State by log entry 2). -/
def Obligations.StepKeepsInvariant : Prop :=
  ∀ (s t : State), Inv s → step s = .next t → Inv t

/-- The state after reset meets the invariant, and so does it with any image loaded. -/
def Obligations.ResetMeetsInvariant : Prop :=
  Inv State.reset ∧ ∀ (image : List Byte) (s : State), loadImage image State.reset = some s → Inv s

/-- The reset values (10_state.md §9): memory, registers, stack, queue and trace as the source says; `pc` is the spec's
decision D9 and the status record its decision D18; the parameters are the spec's defaults (log entry 2), and `lineIn`
is empty by the model's choice (log entry 3). -/
def Obligations.ResetValues : Prop :=
  (∀ a, readWord State.reset.mem a = 0) ∧ (∀ d : Fin 8, State.reset.reg d = 0) ∧ State.reset.stack = [] ∧
  State.reset.inq = [] ∧ State.reset.out = [] ∧ State.reset.pc = 0 ∧
  State.reset.status = ⟨.running, .none, .none, 0, 0⟩ ∧
  State.reset.cfg = ⟨.fault, none, none⟩ ∧ State.reset.lineIn = []

/-- Loading (70_reset_and_hazards.md §1; the formula of a little-endian word is general knowledge the spec marks as G3, and
the refusal of a longer image its decision D14): word k is `B[2k] + 256 * B[2k+1]`, a trailing odd byte is dropped, the
rest of memory stays 0 and no other state changes. -/
def Obligations.LoadPutsImageAtZero : Prop :=
  ∀ (image : List Byte),
    (image.length / 2 ≤ 32768 → ∃ m, loadImage image State.reset = some { State.reset with mem := m } ∧
      (∀ k, k < image.length / 2 →
        (readWord m k).toNat = (image.getD (2 * k) 0).toNat + 256 * (image.getD (2 * k + 1) 0).toNat) ∧
      (∀ k, image.length / 2 ≤ k → readWord m k = 0)) ∧
    (32768 < image.length / 2 → loadImage image State.reset = none)

/-- 43_control_transfer.md §3, the source's property: a `call` followed by a `ret` comes back to the address after the
call's operand, with the stack as before. -/
def Obligations.CallThenRetComesBack : Prop :=
  ∀ (s : State) (a v : Word), HasValue s a v → StackHasRoom s →
    ∃ t, exec (.call a) s = .next t ∧ t.pc = v ∧ exec .ret t = .next { s with pc := s.pc + 2 }

/-- A read returns the value of the most recent write (20_memory.md §4): after a `wmem`, an `rmem` of the same address
gives the word stored, and one of another address what was there before. -/
def Obligations.StoreThenLoad : Prop :=
  ∀ (s t : State) (a b c dst addr addr' v : Word) (d : Fin 8),
    HasValue s a addr → HasValue s b v → addr.toNat < 32768 → exec (.wmem a b) s = .next t →
    NamesRegister dst d → HasValue t c addr' → addr'.toNat < 32768 →
    ∃ u, exec (.rmem dst c) t = .next u ∧
      u.reg d = (if addr' = addr then v else readWord s.mem addr'.toNat)

/-- Fetch sees every earlier store (20_memory.md §4, 70_reset_and_hazards.md §3): when a step of a `wmem` stores the opcode
of a one-word instruction at the address the next step fetches from, even over the next instruction, the next step runs
the stored one. -/
def Obligations.StoreIsFetched : Prop :=
  ∀ (s t : State) (a b addr : Word) (i : Instr), s.status.run = .running → fetchDecode s = .ok (.wmem a b) →
    HasValue s a addr → addr = s.pc + 3 → addr.toNat < 32768 → i.operands = [] →
    HasValue s b (BitVec.ofNat 16 i.opcode) → step s = .next t → t.pc = addr ∧ step t = exec i t

/-- 60_exceptions.md R103: a run can fail to end. A `jmp` to its own address runs forever: the step leads back to the same
state, which is neither HALTED nor FAULTED, and no other state is ever reached. -/
def Obligations.JumpToItselfRunsForever : Prop :=
  ∀ (s : State) (a : Word), s.status.run = .running → fetchDecode s = .ok (.jmp a) → HasValue s a s.pc →
    step s = .next s ∧ (∀ t, Reaches s t → t = s) ∧ SafeFrom s ∧ ¬ Ended s
end

