-- ==== Sys2Proof/Laws/Decode.lean ====
section
/-! SUPPORT. What the formats of the decoder can do, one lemma each. -/

namespace Sys2Proof

theorem decodeF0_ok {i j : Instr} {ws rest : List Word} : decodeF0 i ws = .ok (j, rest) ↔ j = i ∧ ws = rest := by
  simp [decodeF0, eq_comm]

theorem decodeF1_ok {mk : Word → Instr} {j : Instr} {ws rest : List Word} :
    decodeF1 mk ws = .ok (j, rest) ↔ ∃ a, j = mk a ∧ ws = a :: rest := by
  cases ws <;> simp [decodeF1, eq_comm]

theorem decodeF2_ok {mk : Word → Word → Instr} {j : Instr} {ws rest : List Word} :
    decodeF2 mk ws = .ok (j, rest) ↔ ∃ a b, j = mk a b ∧ ws = a :: b :: rest := by
  rcases ws with _ | ⟨a, _ | ⟨b, ws⟩⟩ <;> simp [decodeF2, eq_comm]

theorem decodeF3_ok {mk : Word → Word → Word → Instr} {j : Instr} {ws rest : List Word} :
    decodeF3 mk ws = .ok (j, rest) ↔ ∃ a b c, j = mk a b c ∧ ws = a :: b :: c :: rest := by
  rcases ws with _ | ⟨a, _ | ⟨b, _ | ⟨c, ws⟩⟩⟩ <;> simp [decodeF3, eq_comm]

/-- An opcode above 21 is illegal. -/
theorem decodeOperands_illegal {op : Word} (ws : List Word) (h : 21 < op.toNat) :
    decodeOperands op ws = .error (.invalidOpcode op) := by
  unfold decodeOperands
  split <;> first | rfl | omega

theorem length_wordsOfBytes : ∀ bs : List Byte, (wordsOfBytes bs).length = bs.length / 2
  | [] => rfl
  | [_] => by simp [wordsOfBytes]
  | _ :: _ :: bs => by simp only [wordsOfBytes, List.length_cons, length_wordsOfBytes bs]; omega

end Sys2Proof
end

