-- ==== Sys2Proof/Laws/State.lean ====
section
/-! SUPPORT. One lemma per field per update of State, each true by definition, so that no proof unfolds a record update;
and the read of a register after each update. -/

namespace Sys2Proof.Machine

variable (s : State)

/-! ### withMem -/

@[simp] theorem withMem_mem (m : Memory) : (s.withMem m).mem = m := rfl
@[simp] theorem withMem_x (m : Memory) : (s.withMem m).x = s.x := rfl
@[simp] theorem withMem_pc (m : Memory) : (s.withMem m).pc = s.pc := rfl
@[simp] theorem withMem_stack (m : Memory) : (s.withMem m).stack = s.stack := rfl
@[simp] theorem withMem_inq (m : Memory) : (s.withMem m).inq = s.inq := rfl
@[simp] theorem withMem_status (m : Memory) : (s.withMem m).status = s.status := rfl
@[simp] theorem withMem_out (m : Memory) : (s.withMem m).out = s.out := rfl
@[simp] theorem withMem_lineIn (m : Memory) : (s.withMem m).lineIn = s.lineIn := rfl
@[simp] theorem withMem_cfg (m : Memory) : (s.withMem m).cfg = s.cfg := rfl
@[simp] theorem withMem_reg (m : Memory) (j : Fin 8) : (s.withMem m).reg j = s.reg j := rfl

/-! ### withPc -/

@[simp] theorem withPc_mem (p : Word) : (s.withPc p).mem = s.mem := rfl
@[simp] theorem withPc_x (p : Word) : (s.withPc p).x = s.x := rfl
@[simp] theorem withPc_pc (p : Word) : (s.withPc p).pc = p := rfl
@[simp] theorem withPc_stack (p : Word) : (s.withPc p).stack = s.stack := rfl
@[simp] theorem withPc_inq (p : Word) : (s.withPc p).inq = s.inq := rfl
@[simp] theorem withPc_status (p : Word) : (s.withPc p).status = s.status := rfl
@[simp] theorem withPc_out (p : Word) : (s.withPc p).out = s.out := rfl
@[simp] theorem withPc_lineIn (p : Word) : (s.withPc p).lineIn = s.lineIn := rfl
@[simp] theorem withPc_cfg (p : Word) : (s.withPc p).cfg = s.cfg := rfl
@[simp] theorem withPc_reg (p : Word) (j : Fin 8) : (s.withPc p).reg j = s.reg j := rfl

/-! ### withStack -/

@[simp] theorem withStack_mem (st : List Word) : (s.withStack st).mem = s.mem := rfl
@[simp] theorem withStack_x (st : List Word) : (s.withStack st).x = s.x := rfl
@[simp] theorem withStack_pc (st : List Word) : (s.withStack st).pc = s.pc := rfl
@[simp] theorem withStack_stack (st : List Word) : (s.withStack st).stack = st := rfl
@[simp] theorem withStack_inq (st : List Word) : (s.withStack st).inq = s.inq := rfl
@[simp] theorem withStack_status (st : List Word) : (s.withStack st).status = s.status := rfl
@[simp] theorem withStack_out (st : List Word) : (s.withStack st).out = s.out := rfl
@[simp] theorem withStack_lineIn (st : List Word) : (s.withStack st).lineIn = s.lineIn := rfl
@[simp] theorem withStack_cfg (st : List Word) : (s.withStack st).cfg = s.cfg := rfl
@[simp] theorem withStack_reg (st : List Word) (j : Fin 8) : (s.withStack st).reg j = s.reg j := rfl

/-! ### withInq -/

@[simp] theorem withInq_mem (q : List Byte) : (s.withInq q).mem = s.mem := rfl
@[simp] theorem withInq_x (q : List Byte) : (s.withInq q).x = s.x := rfl
@[simp] theorem withInq_pc (q : List Byte) : (s.withInq q).pc = s.pc := rfl
@[simp] theorem withInq_stack (q : List Byte) : (s.withInq q).stack = s.stack := rfl
@[simp] theorem withInq_inq (q : List Byte) : (s.withInq q).inq = q := rfl
@[simp] theorem withInq_status (q : List Byte) : (s.withInq q).status = s.status := rfl
@[simp] theorem withInq_out (q : List Byte) : (s.withInq q).out = s.out := rfl
@[simp] theorem withInq_lineIn (q : List Byte) : (s.withInq q).lineIn = s.lineIn := rfl
@[simp] theorem withInq_cfg (q : List Byte) : (s.withInq q).cfg = s.cfg := rfl
@[simp] theorem withInq_reg (q : List Byte) (j : Fin 8) : (s.withInq q).reg j = s.reg j := rfl

/-! ### withStatus -/

@[simp] theorem withStatus_mem (st : Status) : (s.withStatus st).mem = s.mem := rfl
@[simp] theorem withStatus_x (st : Status) : (s.withStatus st).x = s.x := rfl
@[simp] theorem withStatus_pc (st : Status) : (s.withStatus st).pc = s.pc := rfl
@[simp] theorem withStatus_stack (st : Status) : (s.withStatus st).stack = s.stack := rfl
@[simp] theorem withStatus_inq (st : Status) : (s.withStatus st).inq = s.inq := rfl
@[simp] theorem withStatus_status (st : Status) : (s.withStatus st).status = st := rfl
@[simp] theorem withStatus_out (st : Status) : (s.withStatus st).out = s.out := rfl
@[simp] theorem withStatus_lineIn (st : Status) : (s.withStatus st).lineIn = s.lineIn := rfl
@[simp] theorem withStatus_cfg (st : Status) : (s.withStatus st).cfg = s.cfg := rfl
@[simp] theorem withStatus_reg (st : Status) (j : Fin 8) : (s.withStatus st).reg j = s.reg j := rfl

/-! ### withOut -/

@[simp] theorem withOut_mem (o : List Byte) : (s.withOut o).mem = s.mem := rfl
@[simp] theorem withOut_x (o : List Byte) : (s.withOut o).x = s.x := rfl
@[simp] theorem withOut_pc (o : List Byte) : (s.withOut o).pc = s.pc := rfl
@[simp] theorem withOut_stack (o : List Byte) : (s.withOut o).stack = s.stack := rfl
@[simp] theorem withOut_inq (o : List Byte) : (s.withOut o).inq = s.inq := rfl
@[simp] theorem withOut_status (o : List Byte) : (s.withOut o).status = s.status := rfl
@[simp] theorem withOut_out (o : List Byte) : (s.withOut o).out = o := rfl
@[simp] theorem withOut_lineIn (o : List Byte) : (s.withOut o).lineIn = s.lineIn := rfl
@[simp] theorem withOut_cfg (o : List Byte) : (s.withOut o).cfg = s.cfg := rfl
@[simp] theorem withOut_reg (o : List Byte) (j : Fin 8) : (s.withOut o).reg j = s.reg j := rfl

/-! ### withLineIn -/

@[simp] theorem withLineIn_mem (l : List LineAnswer) : (s.withLineIn l).mem = s.mem := rfl
@[simp] theorem withLineIn_x (l : List LineAnswer) : (s.withLineIn l).x = s.x := rfl
@[simp] theorem withLineIn_pc (l : List LineAnswer) : (s.withLineIn l).pc = s.pc := rfl
@[simp] theorem withLineIn_stack (l : List LineAnswer) : (s.withLineIn l).stack = s.stack := rfl
@[simp] theorem withLineIn_inq (l : List LineAnswer) : (s.withLineIn l).inq = s.inq := rfl
@[simp] theorem withLineIn_status (l : List LineAnswer) : (s.withLineIn l).status = s.status := rfl
@[simp] theorem withLineIn_out (l : List LineAnswer) : (s.withLineIn l).out = s.out := rfl
@[simp] theorem withLineIn_lineIn (l : List LineAnswer) : (s.withLineIn l).lineIn = l := rfl
@[simp] theorem withLineIn_cfg (l : List LineAnswer) : (s.withLineIn l).cfg = s.cfg := rfl
@[simp] theorem withLineIn_reg (l : List LineAnswer) (j : Fin 8) : (s.withLineIn l).reg j = s.reg j := rfl

/-! ### withReg -/

@[simp] theorem withReg_mem (d : Fin 8) (v : Word) : (s.withReg d v).mem = s.mem := rfl
@[simp] theorem withReg_x (d : Fin 8) (v : Word) : (s.withReg d v).x = s.x.set d.val v := rfl
@[simp] theorem withReg_pc (d : Fin 8) (v : Word) : (s.withReg d v).pc = s.pc := rfl
@[simp] theorem withReg_stack (d : Fin 8) (v : Word) : (s.withReg d v).stack = s.stack := rfl
@[simp] theorem withReg_inq (d : Fin 8) (v : Word) : (s.withReg d v).inq = s.inq := rfl
@[simp] theorem withReg_status (d : Fin 8) (v : Word) : (s.withReg d v).status = s.status := rfl
@[simp] theorem withReg_out (d : Fin 8) (v : Word) : (s.withReg d v).out = s.out := rfl
@[simp] theorem withReg_lineIn (d : Fin 8) (v : Word) : (s.withReg d v).lineIn = s.lineIn := rfl
@[simp] theorem withReg_cfg (d : Fin 8) (v : Word) : (s.withReg d v).cfg = s.cfg := rfl
theorem withReg_reg (d : Fin 8) (v : Word) (j : Fin 8) :
    (s.withReg d v).reg j = if j = d then v else s.reg j := by
  simp only [State.reg, withReg_x, Vector.getElem_set, Fin.ext_iff, eq_comm]
@[simp] theorem withReg_reg_same (d : Fin 8) (v : Word) : (s.withReg d v).reg d = v := by
  simp [withReg_reg]
@[simp] theorem withReg_reg_other (d j : Fin 8) (v : Word) (h : j ≠ d) : (s.withReg d v).reg j = s.reg j := by
  simp [withReg_reg, h]

/-! ### advance -/

@[simp] theorem advance_mem (n : Nat) : (s.advance n).mem = s.mem := rfl
@[simp] theorem advance_x (n : Nat) : (s.advance n).x = s.x := rfl
@[simp] theorem advance_pc (n : Nat) : (s.advance n).pc = s.nextPc n := rfl
@[simp] theorem advance_stack (n : Nat) : (s.advance n).stack = s.stack := rfl
@[simp] theorem advance_inq (n : Nat) : (s.advance n).inq = s.inq := rfl
@[simp] theorem advance_status (n : Nat) : (s.advance n).status = s.status := rfl
@[simp] theorem advance_out (n : Nat) : (s.advance n).out = s.out := rfl
@[simp] theorem advance_lineIn (n : Nat) : (s.advance n).lineIn = s.lineIn := rfl
@[simp] theorem advance_cfg (n : Nat) : (s.advance n).cfg = s.cfg := rfl
@[simp] theorem advance_reg (n : Nat) (j : Fin 8) : (s.advance n).reg j = s.reg j := rfl

/-! ### takeFault -/

@[simp] theorem takeFault_mem (f : Raised) : (takeFault f s).mem = s.mem := rfl
@[simp] theorem takeFault_x (f : Raised) : (takeFault f s).x = s.x := rfl
@[simp] theorem takeFault_pc (f : Raised) : (takeFault f s).pc = s.pc := rfl
@[simp] theorem takeFault_stack (f : Raised) : (takeFault f s).stack = s.stack := rfl
@[simp] theorem takeFault_inq (f : Raised) : (takeFault f s).inq = s.inq := rfl
@[simp] theorem takeFault_status (f : Raised) : (takeFault f s).status = ⟨.faulted, s.status.haltCause, f.kind, s.pc, f.info⟩ := rfl
@[simp] theorem takeFault_out (f : Raised) : (takeFault f s).out = s.out := rfl
@[simp] theorem takeFault_lineIn (f : Raised) : (takeFault f s).lineIn = s.lineIn := rfl
@[simp] theorem takeFault_cfg (f : Raised) : (takeFault f s).cfg = s.cfg := rfl
@[simp] theorem takeFault_reg (f : Raised) (j : Fin 8) : (takeFault f s).reg j = s.reg j := rfl

/-! ### terminate -/

@[simp] theorem terminate_mem (c : HaltCause) (p : Word) : (terminate c p s).mem = s.mem := rfl
@[simp] theorem terminate_x (c : HaltCause) (p : Word) : (terminate c p s).x = s.x := rfl
@[simp] theorem terminate_pc (c : HaltCause) (p : Word) : (terminate c p s).pc = p := rfl
@[simp] theorem terminate_stack (c : HaltCause) (p : Word) : (terminate c p s).stack = s.stack := rfl
@[simp] theorem terminate_inq (c : HaltCause) (p : Word) : (terminate c p s).inq = s.inq := rfl
@[simp] theorem terminate_status (c : HaltCause) (p : Word) : (terminate c p s).status = ⟨.halted, c, s.status.faultKind, s.status.faultPc, s.status.faultInfo⟩ := rfl
@[simp] theorem terminate_out (c : HaltCause) (p : Word) : (terminate c p s).out = s.out := rfl
@[simp] theorem terminate_lineIn (c : HaltCause) (p : Word) : (terminate c p s).lineIn = s.lineIn := rfl
@[simp] theorem terminate_cfg (c : HaltCause) (p : Word) : (terminate c p s).cfg = s.cfg := rfl
@[simp] theorem terminate_reg (c : HaltCause) (p : Word) (j : Fin 8) : (terminate c p s).reg j = s.reg j := rfl

/-! ### emit -/

@[simp] theorem emit_mem (b : Byte) : (emit b s).mem = s.mem := rfl
@[simp] theorem emit_x (b : Byte) : (emit b s).x = s.x := rfl
@[simp] theorem emit_pc (b : Byte) : (emit b s).pc = s.pc := rfl
@[simp] theorem emit_stack (b : Byte) : (emit b s).stack = s.stack := rfl
@[simp] theorem emit_inq (b : Byte) : (emit b s).inq = s.inq := rfl
@[simp] theorem emit_status (b : Byte) : (emit b s).status = s.status := rfl
@[simp] theorem emit_out (b : Byte) : (emit b s).out = s.out ++ [b] := rfl
@[simp] theorem emit_lineIn (b : Byte) : (emit b s).lineIn = s.lineIn := rfl
@[simp] theorem emit_cfg (b : Byte) : (emit b s).cfg = s.cfg := rfl
@[simp] theorem emit_reg (b : Byte) (j : Fin 8) : (emit b s).reg j = s.reg j := rfl

/-! ### answerLine -/

@[simp] theorem answerLine_mem (a : LineAnswer) : (s.answerLine a).mem = s.mem := rfl
@[simp] theorem answerLine_x (a : LineAnswer) : (s.answerLine a).x = s.x := rfl
@[simp] theorem answerLine_pc (a : LineAnswer) : (s.answerLine a).pc = s.pc := rfl
@[simp] theorem answerLine_stack (a : LineAnswer) : (s.answerLine a).stack = s.stack := rfl
@[simp] theorem answerLine_inq (a : LineAnswer) : (s.answerLine a).inq = s.inq := rfl
@[simp] theorem answerLine_status (a : LineAnswer) : (s.answerLine a).status = s.status := rfl
@[simp] theorem answerLine_out (a : LineAnswer) : (s.answerLine a).out = s.out := rfl
@[simp] theorem answerLine_lineIn (a : LineAnswer) : (s.answerLine a).lineIn = s.lineIn ++ [a] := rfl
@[simp] theorem answerLine_cfg (a : LineAnswer) : (s.answerLine a).cfg = s.cfg := rfl
@[simp] theorem answerLine_reg (a : LineAnswer) (j : Fin 8) : (s.answerLine a).reg j = s.reg j := rfl

end Sys2Proof.Machine
end

