-- ==== Sys2Proof/Laws/Status.lean ====
section
/-! SUPPORT. The fields of a faulted and of a halted state, each true by definition. -/

namespace Sys2Proof.Safety

open Sys2Proof.Machine

variable (s : State)

@[simp] theorem faultedAt_mem (k : FaultKind) (info : Word) : (faultedAt s k info).mem = s.mem := rfl
@[simp] theorem faultedAt_x (k : FaultKind) (info : Word) : (faultedAt s k info).x = s.x := rfl
@[simp] theorem faultedAt_pc (k : FaultKind) (info : Word) : (faultedAt s k info).pc = s.pc := rfl
@[simp] theorem faultedAt_stack (k : FaultKind) (info : Word) : (faultedAt s k info).stack = s.stack := rfl
@[simp] theorem faultedAt_inq (k : FaultKind) (info : Word) : (faultedAt s k info).inq = s.inq := rfl
@[simp] theorem faultedAt_out (k : FaultKind) (info : Word) : (faultedAt s k info).out = s.out := rfl
@[simp] theorem faultedAt_lineIn (k : FaultKind) (info : Word) : (faultedAt s k info).lineIn = s.lineIn := rfl
@[simp] theorem faultedAt_cfg (k : FaultKind) (info : Word) : (faultedAt s k info).cfg = s.cfg := rfl
@[simp] theorem faultedAt_status (k : FaultKind) (info : Word) :
    (faultedAt s k info).status = ⟨.faulted, s.status.haltCause, k, s.pc, info⟩ := rfl
@[simp] theorem faultedAt_reg (k : FaultKind) (info : Word) (j : Fin 8) : (faultedAt s k info).reg j = s.reg j := rfl

@[simp] theorem haltedAt_mem (c : HaltCause) (p : Word) : (haltedAt s c p).mem = s.mem := rfl
@[simp] theorem haltedAt_x (c : HaltCause) (p : Word) : (haltedAt s c p).x = s.x := rfl
@[simp] theorem haltedAt_stack (c : HaltCause) (p : Word) : (haltedAt s c p).stack = s.stack := rfl
@[simp] theorem haltedAt_inq (c : HaltCause) (p : Word) : (haltedAt s c p).inq = s.inq := rfl
@[simp] theorem haltedAt_out (c : HaltCause) (p : Word) : (haltedAt s c p).out = s.out := rfl
@[simp] theorem haltedAt_lineIn (c : HaltCause) (p : Word) : (haltedAt s c p).lineIn = s.lineIn := rfl
@[simp] theorem haltedAt_cfg (c : HaltCause) (p : Word) : (haltedAt s c p).cfg = s.cfg := rfl
@[simp] theorem haltedAt_pc (c : HaltCause) (p : Word) : (haltedAt s c p).pc = p := rfl
@[simp] theorem haltedAt_status (c : HaltCause) (p : Word) :
    (haltedAt s c p).status = ⟨.halted, c, s.status.faultKind, s.status.faultPc, s.status.faultInfo⟩ := rfl
@[simp] theorem haltedAt_reg (c : HaltCause) (p : Word) (j : Fin 8) : (haltedAt s c p).reg j = s.reg j := rfl

end Sys2Proof.Safety
end

