-- ==== Sys2Proof/Laws/Operands.lean ====
section
/-! SUPPORT. What the operand resolvers and the fault combinator can do, in the words of Safety.lean: citing these, no
later proof unfolds a resolver. -/

namespace Sys2Proof.Machine

open Sys2Proof.Safety

/-! ### Classes of operand words -/

/-- Every word either names one register or none. -/
theorem names_or_not (w : Word) : (∃ d, NamesRegister w d) ∨ NotRegister w := by
  unfold NamesRegister NotRegister
  by_cases h : w.toNat < 32768
  · exact .inr (.inl h)
  · by_cases h' : 32775 < w.toNat
    · exact .inr (.inr h')
    · exact .inl ⟨⟨w.toNat - 32768, by omega⟩, by simp only; omega⟩

theorem names_unique {w : Word} {d e : Fin 8} (h : NamesRegister w d) (h' : NamesRegister w e) : d = e := by
  unfold NamesRegister at h h'; omega

theorem not_names_of_notRegister {w : Word} {d : Fin 8} (h : NotRegister w) : ¬ NamesRegister w d := by
  unfold NamesRegister NotRegister at *; omega

/-- Every word either stands for a value or for nothing. -/
theorem hasValue_or_noValue (s : State) (w : Word) : (∃ v, HasValue s w v) ∨ NoValue s w := by
  rcases Nat.lt_or_ge 32775 w.toNat with h | h
  · cases hm : s.cfg.highRawMode with
    | fault => exact .inr ⟨h, hm⟩
    | literal => exact .inl ⟨w, .inr (.inr ⟨h, hm, rfl⟩)⟩
  · rcases names_or_not w with ⟨d, hd⟩ | hn
    · exact .inl ⟨_, .inr (.inl ⟨d, hd, rfl⟩)⟩
    · refine .inl ⟨w, .inl ⟨?_, rfl⟩⟩
      unfold NotRegister at hn; omega

/-! ### The resolvers -/

theorem resolveRegister_of_names {w : Word} {d : Fin 8} (h : NamesRegister w d) : resolveRegister w = .ok d := by
  unfold NamesRegister at h
  have hd := d.isLt
  have e : (⟨w.toNat - 32768, by omega⟩ : Fin 8) = d := Fin.ext (by simp only; omega)
  rw [resolveRegister, if_neg (by omega), dif_pos (by omega), e]

theorem resolveRegister_of_not {w : Word} (h : NotRegister w) : resolveRegister w = .error ⟨.invalidRegister, w⟩ := by
  unfold NotRegister at h
  rw [resolveRegister]
  split
  · rfl
  · rw [dif_neg (by omega)]

theorem resolveValue_of_hasValue {s : State} {w v : Word} (h : HasValue s w v) : resolveValue s w = .ok v := by
  unfold HasValue NamesRegister at h
  rcases h with ⟨h, rfl⟩ | ⟨d, h, rfl⟩ | ⟨h, hm, rfl⟩
  · rw [resolveValue, if_pos h]
  · have hd := d.isLt
    have e : (⟨w.toNat - 32768, by omega⟩ : Fin 8) = d := Fin.ext (by simp only; omega)
    rw [resolveValue, if_neg (by omega), dif_pos (by omega), e]
  · rw [resolveValue, if_neg (by omega), dif_neg (by omega), hm]

theorem resolveValue_of_noValue {s : State} {w : Word} (h : NoValue s w) :
    resolveValue s w = .error ⟨.invalidOperand, w⟩ := by
  unfold NoValue at h
  rw [resolveValue, if_neg (by omega), dif_neg (by omega), h.2]

/-- A word stands for one value. -/
theorem hasValue_unique {s : State} {w v v' : Word} (h : HasValue s w v) (h' : HasValue s w v') : v = v' := by
  have := (resolveValue_of_hasValue h).symm.trans (resolveValue_of_hasValue h')
  simpa using this

theorem not_hasValue_of_noValue {s : State} {w v : Word} (h : NoValue s w) : ¬ HasValue s w v := by
  intro h'
  have := (resolveValue_of_hasValue h').symm.trans (resolveValue_of_noValue h)
  simp at this

/-- The value of an operand depends on the registers and the mode alone. -/
theorem hasValue_congr {s t : State} {w v : Word} (hx : t.x = s.x) (hc : t.cfg = s.cfg) (h : HasValue s w v) :
    HasValue t w v := by
  unfold HasValue State.reg at *
  rw [hx, hc]; exact h

/-! ### Taking a fault -/

/-- The shared operation is the spec's faulted state. -/
theorem takeFault_eq (f : Raised) (s : State) : takeFault f s = faultedAt s f.kind f.info := rfl

theorem terminate_eq (c : HaltCause) (p : Word) (s : State) : terminate c p s = haltedAt s c p := rfl

@[simp] theorem orFault_ok {α : Type} (v : α) (s : State) (k : α → Result) : orFault (.ok v) s k = k v := rfl

@[simp] theorem orFault_error {α : Type} (f : Raised) (s : State) (k : α → Result) :
    orFault (.error f) s k = .next (faultedAt s f.kind f.info) := rfl

/-- All that `orFault` can answer. -/
theorem orFault_next {α : Type} {r : Except Raised α} {s t : State} {k : α → Result} (h : orFault r s k = .next t) :
    (∃ v, r = .ok v ∧ k v = .next t) ∨ (∃ f, r = .error f ∧ t = faultedAt s f.kind f.info) := by
  cases r with
  | ok v => exact .inl ⟨v, rfl, h⟩
  | error f => exact .inr ⟨f, rfl, by simpa using h.symm⟩

theorem withDest_of_names {w : Word} {d : Fin 8} {s : State} {k : Fin 8 → Result} (h : NamesRegister w d) :
    withDest w s k = k d := by
  rw [withDest, resolveRegister_of_names h]; rfl

theorem withDest_of_not {w : Word} {s : State} {k : Fin 8 → Result} (h : NotRegister w) :
    withDest w s k = .next (faultedAt s .invalidRegister w) := by
  rw [withDest, resolveRegister_of_not h]; rfl

theorem withValue_of_hasValue {w v : Word} {s : State} {k : Word → Result} (h : HasValue s w v) :
    withValue w s k = k v := by
  rw [withValue, resolveValue_of_hasValue h]; rfl

theorem withValue_of_noValue {w : Word} {s : State} {k : Word → Result} (h : NoValue s w) :
    withValue w s k = .next (faultedAt s .invalidOperand w) := by
  rw [withValue, resolveValue_of_noValue h]; rfl

/-- All that resolving a register operand can lead to. -/
theorem withDest_cases (w : Word) (s : State) (k : Fin 8 → Result) :
    (∃ d, NamesRegister w d ∧ withDest w s k = k d) ∨
    (NotRegister w ∧ withDest w s k = .next (faultedAt s .invalidRegister w)) := by
  rcases names_or_not w with ⟨d, h⟩ | h
  · exact .inl ⟨d, h, withDest_of_names h⟩
  · exact .inr ⟨h, withDest_of_not h⟩

/-- All that resolving a value operand can lead to. -/
theorem withValue_cases (w : Word) (s : State) (k : Word → Result) :
    (∃ v, HasValue s w v ∧ withValue w s k = k v) ∨
    (NoValue s w ∧ withValue w s k = .next (faultedAt s .invalidOperand w)) := by
  rcases hasValue_or_noValue s w with ⟨v, h⟩ | h
  · exact .inl ⟨v, h, withValue_of_hasValue h⟩
  · exact .inr ⟨h, withValue_of_noValue h⟩

/-! ### Checks of memory and stack -/

theorem memRead_of_lt {s : State} {a : Word} (h : a.toNat < 32768) : memRead s a = .ok (readWord s.mem a.toNat) := by
  rw [memRead, if_pos (show a.toNat < memoryWords from h)]

theorem memRead_of_ge {s : State} {a : Word} (h : 32768 ≤ a.toNat) : memRead s a = .error ⟨.memoryOutOfRange, a⟩ := by
  rw [memRead, if_neg (show ¬ a.toNat < memoryWords from Nat.not_lt.mpr h)]

theorem memWrite_of_lt {s : State} {a v : Word} (h : a.toNat < 32768) :
    memWrite s a v = .ok (writeWord s.mem a.toNat v) := by
  rw [memWrite, if_pos (show a.toNat < memoryWords from h)]

theorem memWrite_of_ge {s : State} {a v : Word} (h : 32768 ≤ a.toNat) :
    memWrite s a v = .error ⟨.memoryOutOfRange, a⟩ := by
  rw [memWrite, if_neg (show ¬ a.toNat < memoryWords from Nat.not_lt.mpr h)]

theorem stackPush_of_room {s : State} {v : Word} (h : StackHasRoom s) : stackPush s v = .ok (v :: s.stack) := by
  unfold StackHasRoom at h
  rw [stackPush, stackFull]
  cases hc : s.cfg.stackCapacity with
  | none => simp
  | some n => have := h n hc; simp; omega

theorem stackPush_of_full {s : State} {v : Word} (h : StackIsFull s) : stackPush s v = .error ⟨.stackOverflow, 0⟩ := by
  obtain ⟨n, hc, hl⟩ := h
  simp [stackPush, stackFull, hc, hl]

/-- All that a push can lead to. -/
theorem stackPush_cases (s : State) (v : Word) :
    (StackHasRoom s ∧ stackPush s v = .ok (v :: s.stack)) ∨
    ((∃ n, s.cfg.stackCapacity = some n ∧ n ≤ s.stack.length) ∧ stackPush s v = .error ⟨.stackOverflow, 0⟩) := by
  cases hc : s.cfg.stackCapacity with
  | none => exact .inl ⟨fun n h => by simp [hc] at h, by simp [stackPush, stackFull, hc]⟩
  | some n =>
    by_cases h : n ≤ s.stack.length
    · exact .inr ⟨⟨n, rfl, h⟩, by simp [stackPush, stackFull, hc, h]⟩
    · have hr : StackHasRoom s := fun m hm => by
        have : n = m := by simpa [hc] using hm
        omega
      exact .inl ⟨hr, stackPush_of_room hr⟩

end Sys2Proof.Machine
end

