-- ==== Sys2Proof/Laws/Exec.lean ====
section
/-! SUPPORT. Said once: everything an instruction can do when it answers a next state (`Effect`, one constructor per
way), and that `exec` and `step` do nothing else. Frames and invariants are case analyses of `Effect`; none unfolds a
meaning again. -/

namespace Sys2Proof.Machine

open Sys2Proof.Safety

/-- The ways an instruction can lead from `s` to a next state. -/
inductive Effect (s : State) : Instr → State → Prop where
  /-- A fault raised at execution. `later` is what is left of the host's answers. -/
  | fault {i : Instr} (k : FaultKind) (info : Word) (later : List LineAnswer) (hk : k ≠ .none) (hi : MayRaise s i info k)
      (hl : later = s.lineIn ∨ (k = .inputExhausted ∧ s.lineIn = .exhausted :: later)) :
      Effect s i (faultedAt (s.withLineIn later) k info)
  | halt : Effect s .halt (haltedAt s .haltInstr (s.nextPc 1))
  | set {dst b v : Word} {d : Fin 8} (hd : NamesRegister dst d) (hb : HasValue s b v) :
      Effect s (.set dst b) ((s.advance 3).withReg d v)
  | push {a v : Word} (ha : HasValue s a v) (hr : StackHasRoom s) :
      Effect s (.push a) ((s.advance 2).withStack (v :: s.stack))
  | pop {dst v : Word} {d : Fin 8} {rest : List Word} (hd : NamesRegister dst d) (hs : s.stack = v :: rest) :
      Effect s (.pop dst) (((s.advance 2).withStack rest).withReg d v)
  | eq {dst b c vb vc : Word} {d : Fin 8} (hd : NamesRegister dst d) (hb : HasValue s b vb) (hc : HasValue s c vc) :
      Effect s (.eq dst b c) ((s.advance 4).withReg d (truthWord (wordsEqual vb vc)))
  | gt {dst b c vb vc : Word} {d : Fin 8} (hd : NamesRegister dst d) (hb : HasValue s b vb) (hc : HasValue s c vc) :
      Effect s (.gt dst b c) ((s.advance 4).withReg d (truthWord (wordGreater vb vc)))
  | jmp {a v : Word} (ha : HasValue s a v) : Effect s (.jmp a) (s.withPc v)
  | jtTaken {a b v t : Word} (ha : HasValue s a v) (hb : HasValue s b t) (hv : v ≠ 0) :
      Effect s (.jt a b) (s.withPc t)
  | jtFalls {a b t : Word} (ha : HasValue s a 0) (hb : HasValue s b t) : Effect s (.jt a b) (s.advance 3)
  | jfTaken {a b t : Word} (ha : HasValue s a 0) (hb : HasValue s b t) : Effect s (.jf a b) (s.withPc t)
  | jfFalls {a b v t : Word} (ha : HasValue s a v) (hb : HasValue s b t) (hv : v ≠ 0) :
      Effect s (.jf a b) (s.advance 3)
  | add {dst b c vb vc : Word} {d : Fin 8} (hd : NamesRegister dst d) (hb : HasValue s b vb) (hc : HasValue s c vc) :
      Effect s (.add dst b c) ((s.advance 4).withReg d (addWords vb vc))
  | mult {dst b c vb vc : Word} {d : Fin 8} (hd : NamesRegister dst d) (hb : HasValue s b vb) (hc : HasValue s c vc) :
      Effect s (.mult dst b c) ((s.advance 4).withReg d (multWords vb vc))
  | mod {dst b c vb vc : Word} {d : Fin 8} (hd : NamesRegister dst d) (hb : HasValue s b vb) (hc : HasValue s c vc)
      (hz : vc ≠ 0) : Effect s (.mod dst b c) ((s.advance 4).withReg d (reduce (vb.toNat % vc.toNat)))
  | and {dst b c vb vc : Word} {d : Fin 8} (hd : NamesRegister dst d) (hb : HasValue s b vb) (hc : HasValue s c vc) :
      Effect s (.and dst b c) ((s.advance 4).withReg d (andWords vb vc))
  | or {dst b c vb vc : Word} {d : Fin 8} (hd : NamesRegister dst d) (hb : HasValue s b vb) (hc : HasValue s c vc) :
      Effect s (.or dst b c) ((s.advance 4).withReg d (orWords vb vc))
  | not {dst b vb : Word} {d : Fin 8} (hd : NamesRegister dst d) (hb : HasValue s b vb) :
      Effect s (.not dst b) ((s.advance 3).withReg d (notWord vb))
  | rmem {dst b addr : Word} {d : Fin 8} (hd : NamesRegister dst d) (hb : HasValue s b addr)
      (hr : addr.toNat < 32768) : Effect s (.rmem dst b) ((s.advance 3).withReg d (readWord s.mem addr.toNat))
  | wmem {a b addr v : Word} (ha : HasValue s a addr) (hb : HasValue s b v) (hr : addr.toNat < 32768) :
      Effect s (.wmem a b) ((s.advance 3).withMem (writeWord s.mem addr.toNat v))
  | call {a t : Word} (ha : HasValue s a t) (hr : StackHasRoom s) :
      Effect s (.call a) ((s.withStack (s.nextPc 2 :: s.stack)).withPc t)
  | retPops {t : Word} {rest : List Word} (hs : s.stack = t :: rest) : Effect s .ret ((s.withStack rest).withPc t)
  | retEnds (hs : s.stack = []) : Effect s .ret (haltedAt s .retEmpty (s.nextPc 1))
  | out {a v : Word} (ha : HasValue s a v) : Effect s (.out a) (emit (lowByte v) (s.advance 2))
  | inServed {dst : Word} {d : Fin 8} {b : Byte} {q : List Byte} (hd : NamesRegister dst d) (hq : s.inq = b :: q) :
      Effect s (.input dst) (((s.advance 2).withInq q).withReg d (zext16 b))
  | inRefilled {dst : Word} {d : Fin 8} {b : Byte} {bs q : List Byte} {later : List LineAnswer}
      (hd : NamesRegister dst d) (hq : s.inq = []) (hl : s.lineIn = .line bs :: later) (hb : bs ++ [10] = b :: q) :
      Effect s (.input dst) ((((s.withLineIn later).advance 2).withInq q).withReg d (zext16 b))
  | noop : Effect s .noop (s.advance 1)

variable {s t : State}

theorem conditionHolds_of_ne {v : Word} (h : v ≠ 0) : conditionHolds v = true := by
  have : v.toNat ≠ 0 := fun e => h (BitVec.eq_of_toNat_eq (by simpa using e))
  simp [conditionHolds, this]

theorem modWords_of_ne {vb vc : Word} (h : vc ≠ 0) : modWords vb vc = .ok (reduce (vb.toNat % vc.toNat)) := by
  have : vc.toNat ≠ 0 := fun e => h (BitVec.eq_of_toNat_eq (by simpa using e))
  rw [modWords, if_neg this]

/-- A fault of execution that uses up no answer of the host. -/
theorem Effect.ofFault {i : Instr} (k : FaultKind) (info : Word) (hk : k ≠ .none) (hi : MayRaise s i info k) :
    Effect s i (faultedAt s k info) :=
  .fault (s := s) k info s.lineIn hk hi (.inl rfl)

/-- The register operand of an instruction with a destination. -/
theorem effect_withDest {i : Instr} {dst : Word} {k : Fin 8 → Result} (hi : destination i = some dst)
    (h : withDest dst s k = .next t) (go : ∀ d, NamesRegister dst d → k d = .next t → Effect s i t) : Effect s i t := by
  rcases withDest_cases dst s k with ⟨d, hd, e⟩ | ⟨hn, e⟩ <;> rw [e] at h
  · exact go d hd h
  · obtain rfl : faultedAt s .invalidRegister dst = t := by simpa using h
    exact .ofFault _ _ (by decide) ⟨hi, hn⟩

/-- A value operand. -/
theorem effect_withValue {i : Instr} {w : Word} {k : Word → Result} (hi : w ∈ valueOperands i)
    (h : withValue w s k = .next t) (go : ∀ v, HasValue s w v → k v = .next t → Effect s i t) : Effect s i t := by
  rcases withValue_cases w s k with ⟨v, hv, e⟩ | ⟨hn, e⟩ <;> rw [e] at h
  · exact go v hv h
  · obtain rfl : faultedAt s .invalidOperand w = t := by simpa using h
    exact .ofFault _ _ (by decide) ⟨hi, hn⟩

/-- The operands of an ALU instruction of format F3RVV. -/
theorem effect_binaryOp {i : Instr} {dst b c : Word} {f : Word → Word → Except Raised Word}
    (hi : destination i = some dst) (hv : valueOperands i = [b, c]) (h : binaryOp f dst b c s = .next t)
    (go : ∀ d vb vc, NamesRegister dst d → HasValue s b vb → HasValue s c vc →
      orFault (f vb vc) s (fun v => .next ((s.advance 4).withReg d v)) = .next t → Effect s i t) : Effect s i t :=
  effect_withDest hi h fun d hd h => effect_withValue (by simp [hv]) h fun vb hb h =>
    effect_withValue (by simp [hv]) h fun vc hc h =>
    go d vb vc hd hb hc h

/-- Two ways of writing one answer. -/
theorem next_inj {u : State} (h : (.next u : Result) = .next t) : u = t := by simpa using h

/-- EVERYTHING AN INSTRUCTION CAN DO when it answers a next state. -/
theorem exec_next {i : Instr} (h : exec i s = .next t) : Effect s i t := by
  cases i with
  | halt =>
    obtain rfl := next_inj h
    exact .halt
  | set dst b =>
    refine effect_withDest rfl h fun d hd h => effect_withValue (by simp [valueOperands]) h fun v hb h => ?_
    obtain rfl := next_inj h
    exact .set hd hb
  | push a =>
    refine effect_withValue (by simp [valueOperands]) h fun v ha h => ?_
    rcases stackPush_cases s v with ⟨hr, e⟩ | ⟨hn, e⟩ <;> rw [e] at h <;> obtain rfl := next_inj h
    · exact .push ha hr
    · exact .ofFault _ _ (by decide) ⟨.inl ⟨a, rfl⟩, hn, rfl⟩
  | pop dst =>
    refine effect_withDest rfl h fun d hd h => ?_
    cases hs : s.stack with
    | nil =>
      rw [stackPop, hs] at h
      obtain rfl := next_inj h
      exact .ofFault _ _ (by decide) ⟨⟨dst, rfl⟩, hs, rfl⟩
    | cons v rest =>
      rw [stackPop, hs] at h
      obtain rfl := next_inj h
      exact .pop hd hs
  | eq dst b c =>
    refine effect_binaryOp rfl rfl h fun d vb vc hd hb hc h => ?_
    obtain rfl := next_inj h
    exact .eq hd hb hc
  | gt dst b c =>
    refine effect_binaryOp rfl rfl h fun d vb vc hd hb hc h => ?_
    obtain rfl := next_inj h
    exact .gt hd hb hc
  | jmp a =>
    refine effect_withValue (by simp [valueOperands]) h fun v ha h => ?_
    obtain rfl := next_inj h
    exact .jmp ha
  | jt a b =>
    refine effect_withValue (by simp [valueOperands]) h fun v ha h => effect_withValue (by simp [valueOperands]) h fun u hb h => ?_
    obtain rfl := next_inj h
    by_cases hv : v = 0
    · subst hv
      exact .jtFalls ha hb
    · rw [conditionHolds_of_ne hv]
      exact .jtTaken ha hb hv
  | jf a b =>
    refine effect_withValue (by simp [valueOperands]) h fun v ha h => effect_withValue (by simp [valueOperands]) h fun u hb h => ?_
    obtain rfl := next_inj h
    by_cases hv : v = 0
    · subst hv
      exact .jfTaken ha hb
    · simp only [conditionHolds_of_ne hv]
      exact .jfFalls ha hb hv
  | add dst b c =>
    refine effect_binaryOp rfl rfl h fun d vb vc hd hb hc h => ?_
    obtain rfl := next_inj h
    exact .add hd hb hc
  | mult dst b c =>
    refine effect_binaryOp rfl rfl h fun d vb vc hd hb hc h => ?_
    obtain rfl := next_inj h
    exact .mult hd hb hc
  | mod dst b c =>
    refine effect_binaryOp rfl rfl h fun d vb vc hd hb hc h => ?_
    by_cases hz : vc = 0
    · subst hz
      obtain rfl := next_inj h
      exact .ofFault _ _ (by decide) ⟨⟨dst, b, c, rfl, hc⟩, rfl⟩
    · rw [modWords_of_ne hz] at h
      obtain rfl := next_inj h
      exact .mod hd hb hc hz
  | and dst b c =>
    refine effect_binaryOp rfl rfl h fun d vb vc hd hb hc h => ?_
    obtain rfl := next_inj h
    exact .and hd hb hc
  | or dst b c =>
    refine effect_binaryOp rfl rfl h fun d vb vc hd hb hc h => ?_
    obtain rfl := next_inj h
    exact .or hd hb hc
  | not dst b =>
    refine effect_withDest rfl h fun d hd h => effect_withValue (by simp [valueOperands]) h fun v hb h => ?_
    obtain rfl := next_inj h
    exact .not hd hb
  | rmem dst b =>
    refine effect_withDest rfl h fun d hd h => effect_withValue (by simp [valueOperands]) h fun addr hb h => ?_
    rcases Nat.lt_or_ge addr.toNat 32768 with hr | hr
    · rw [memRead_of_lt hr] at h
      obtain rfl := next_inj h
      exact .rmem hd hb hr
    · rw [memRead_of_ge hr] at h
      obtain rfl := next_inj h
      exact .ofFault .memoryOutOfRange _ (by decide) ⟨.inl ⟨dst, b, rfl, hb⟩, hr⟩
  | wmem a b =>
    refine effect_withValue (by simp [valueOperands]) h fun addr ha h => effect_withValue (by simp [valueOperands]) h fun v hb h => ?_
    rcases Nat.lt_or_ge addr.toNat 32768 with hr | hr
    · rw [memWrite_of_lt hr] at h
      obtain rfl := next_inj h
      exact .wmem ha hb hr
    · rw [memWrite_of_ge hr] at h
      obtain rfl := next_inj h
      exact .ofFault .memoryOutOfRange _ (by decide) ⟨.inr ⟨a, b, rfl, ha⟩, hr⟩
  | call a =>
    refine effect_withValue (by simp [valueOperands]) h fun v ha h => ?_
    rcases stackPush_cases s (s.nextPc 2) with ⟨hr, e⟩ | ⟨hn, e⟩ <;> rw [e] at h <;>
      obtain rfl := next_inj h
    · exact .call ha hr
    · exact .ofFault _ _ (by decide) ⟨.inr ⟨a, rfl⟩, hn, rfl⟩
  | ret =>
    change execRet s = _ at h
    cases hs : s.stack with
    | nil =>
      rw [execRet, hs] at h
      obtain rfl := next_inj h
      exact .retEnds hs
    | cons v rest =>
      rw [execRet, hs] at h
      obtain rfl := next_inj h
      exact .retPops hs
  | out a =>
    refine effect_withValue (by simp [valueOperands]) h fun v ha h => ?_
    obtain rfl := next_inj h
    exact .out ha
  | input dst =>
    refine effect_withDest rfl h fun d hd h => ?_
    split at h
    · obtain rfl := next_inj h
      exact .inServed hd ‹_›
    · cases h
    · obtain rfl := next_inj h
      exact .fault _ _ _ (by decide) ⟨⟨dst, rfl⟩, ‹_›, ⟨_, ‹_›⟩, rfl⟩ (.inr ⟨rfl, ‹_›⟩)
    · rename_i bs later hq hl
      split at h
      · cases hb : bs ++ [newline] with
        | nil => simp at hb
        | cons b q =>
          rw [hb] at h
          obtain rfl := next_inj h
          exact .inRefilled hd hq hl hb
      · cases h
  | noop =>
    obtain rfl := next_inj h
    exact .noop

/-! ### `in`, case by case -/

theorem exec_input_served {dst : Word} {d : Fin 8} {b : Byte} {q : List Byte} (hd : NamesRegister dst d)
    (hq : s.inq = b :: q) : exec (.input dst) s = dequeueInto d (b :: q) s := by
  simp only [exec, execInput]; rw [withDest_of_names hd, hq]

theorem exec_input_waits {dst : Word} {d : Fin 8} (hd : NamesRegister dst d) (hq : s.inq = []) (hl : s.lineIn = []) :
    exec (.input dst) s = .fault .waitInput := by
  simp only [exec, execInput]; rw [withDest_of_names hd, hq, hl]

theorem exec_input_exhausted {dst : Word} {d : Fin 8} {later : List LineAnswer} (hd : NamesRegister dst d)
    (hq : s.inq = []) (hl : s.lineIn = .exhausted :: later) :
    exec (.input dst) s = dequeueInto d [] (s.withLineIn later) := by
  simp only [exec, execInput]; rw [withDest_of_names hd, hq, hl]

theorem exec_input_answered {dst : Word} {d : Fin 8} {bs : List Byte} {later : List LineAnswer}
    (hd : NamesRegister dst d) (hq : s.inq = []) (hl : s.lineIn = .line bs :: later) :
    exec (.input dst) s =
      if lineAccepted s bs then dequeueInto d (bs ++ [newline]) (s.withLineIn later) else .refused .lineTooLong := by
  simp only [exec, execInput]; rw [withDest_of_names hd, hq, hl]

theorem lineAccepted_iff {bs : List Byte} :
    lineAccepted s bs = true ↔ ∀ n, s.cfg.maxLineBytes = some n → bs.length ≤ n := by
  cases hc : s.cfg.maxLineBytes <;> simp [lineAccepted, hc]

/-- All that a step can answer. -/
theorem step_next (h : step s = .next t) :
    s.status.run = .running ∧
    ((∃ i, fetchDecode s = .ok i ∧ exec i s = .next t) ∨
     (∃ f, fetchDecode s = .error f ∧ t = faultedAt s f.kind f.info)) := by
  unfold step at h
  split at h
  · rename_i hr
    rcases orFault_next h with ⟨i, hi, h⟩ | ⟨f, hf, h⟩
    · exact ⟨hr, .inl ⟨i, hi, h⟩⟩
    · exact ⟨hr, .inr ⟨f, hf, h⟩⟩
  · cases h
  · cases h

/-- A running block executes the instruction it decodes. -/
theorem step_of_decoded {i : Instr} (hr : s.status.run = .running) (hi : fetchDecode s = .ok i) :
    step s = exec i s := by
  simp only [step, hr, hi, orFault_ok]

/-- A running block takes the fault of its decode. -/
theorem step_of_fault {f : Raised} (hr : s.status.run = .running) (hf : fetchDecode s = .error f) :
    step s = .next (faultedAt s f.kind f.info) := by
  simp only [step, hr, hf, orFault_error]

end Sys2Proof.Machine
end

