-- ==== Sys2Proof/Laws/Memory.lean ====
section
/-! SUPPORT. The laws of memory: a read after a write, and the canonical form kept by every operation. -/

namespace Sys2Proof.Machine

/-! ### One byte -/

theorem readByte_eraseCell (m : Memory) (a k : Nat) :
    readByte (eraseCell a m) k = if k = a then unlistedByte else readByte m k := by
  induction m with
  | nil => simp [eraseCell, readByte]
  | cons c m ih => grind [eraseCell, readByte]

theorem readByte_insertCell (m : Memory) (a k : Nat) (v : Byte)
    (hm : ∀ c ∈ m, c.1 ≠ a) : readByte (insertCell a v m) k = if k = a then v else readByte m k := by
  induction m with
  | nil => grind [insertCell, readByte]
  | cons c m ih => grind [insertCell, readByte]

theorem not_mem_eraseCell (m : Memory) (a : Nat) : ∀ c ∈ eraseCell a m, c.1 ≠ a := by
  induction m with
  | nil => simp [eraseCell]
  | cons c m ih => grind [eraseCell]

/-- A byte read after a byte written, in every memory. -/
theorem readByte_writeByte (m : Memory) (a k : Nat) (v : Byte) :
    readByte (writeByte m a v) k = if k = a then v else readByte m k := by
  unfold writeByte
  split
  · subst v; exact readByte_eraseCell m a k
  · rw [readByte_insertCell _ _ _ _ (not_mem_eraseCell m a), readByte_eraseCell]
    split <;> rfl

@[simp] theorem readByte_writeByte_same (m : Memory) (a : Nat) (v : Byte) : readByte (writeByte m a v) a = v := by
  simp [readByte_writeByte]

@[simp] theorem readByte_writeByte_other (m : Memory) (a k : Nat) (v : Byte) (h : k ≠ a) :
    readByte (writeByte m a v) k = readByte m k := by
  simp [readByte_writeByte, h]

/-! ### One word -/

theorem highByte_append_lowByte (v : Word) : highByte v ++ lowByte v = v := by
  ext i hi
  simp [highByte, lowByte]
  grind

@[simp] theorem readWord_writeWord_same (m : Memory) (a : Nat) (v : Word) : readWord (writeWord m a v) a = v := by
  simp [readWord, writeWord, highByte_append_lowByte]

/-- What a word write leaves alone, byte by byte. -/
theorem readByte_writeWord_other (m : Memory) (a k : Nat) (v : Word) (h0 : k ≠ 2 * a) (h1 : k ≠ 2 * a + 1) :
    readByte (writeWord m a v) k = readByte m k := by
  simp [writeWord, h0, h1]

@[simp] theorem readWord_writeWord_other (m : Memory) (a k : Nat) (v : Word) (h : k ≠ a) :
    readWord (writeWord m a v) k = readWord m k := by
  unfold readWord
  rw [readByte_writeWord_other _ _ _ _ (by omega) (by omega), readByte_writeWord_other _ _ _ _ (by omega) (by omega)]

/-- A word read after words written. -/
theorem readWord_writeWords (m : Memory) (a : Nat) (ws : List Word) (k : Nat) :
    readWord (writeWords m a ws) k =
      if a ≤ k ∧ k < a + ws.length ∧ k < memoryWords then ws.getD (k - a) 0 else readWord m k := by
  induction ws generalizing m a with
  | nil => simp [writeWords]; omega
  | cons w ws ih =>
    rw [writeWords, ih]
    by_cases hka : k = a
    · subst hka
      by_cases hk : k < memoryWords <;> simp [hk]
    · by_cases hlt : a < k
      · have e : k - a = (k - (a + 1)) + 1 := by omega
        have hw : readWord (if a < memoryWords then writeWord m a w else m) k = readWord m k := by
          split
          · exact readWord_writeWord_other _ _ _ _ hka
          · rfl
        rw [hw, e, List.getD_cons_succ]
        have hiff : (a + 1 ≤ k ∧ k < a + 1 + ws.length ∧ k < memoryWords) ↔
            (a ≤ k ∧ k < a + (w :: ws).length ∧ k < memoryWords) := by
          simp only [List.length_cons]; omega
        simp only [hiff]
      · have hw : readWord (if a < memoryWords then writeWord m a w else m) k = readWord m k := by
          split
          · exact readWord_writeWord_other _ _ _ _ hka
          · rfl
        rw [hw, if_neg (by omega), if_neg (by omega)]

/-! ### The canonical form -/

theorem eraseCell_sublist (m : Memory) (a : Nat) : (eraseCell a m).Sublist m := by
  induction m with
  | nil => exact .slnil
  | cons c m ih =>
    rw [eraseCell]
    split
    · exact ih.cons c
    · exact ih.cons_cons c

theorem mem_insertCell (m : Memory) (a : Nat) (v : Byte) (c : Host.Cell) :
    c ∈ insertCell a v m ↔ c = (a, v) ∨ c ∈ m := by
  induction m with
  | nil => simp [insertCell]
  | cons d m ih => grind [insertCell]

theorem insertCell_rising (m : Memory) (a : Nat) (v : Byte) (hm : m.Pairwise (fun c d => c.1 < d.1))
    (ha : ∀ c ∈ m, c.1 ≠ a) : (insertCell a v m).Pairwise (fun c d => c.1 < d.1) := by
  induction m with
  | nil => simp [insertCell]
  | cons d m ih =>
    have := List.pairwise_cons.mp hm
    rw [insertCell]
    split
    · refine List.pairwise_cons.mpr ⟨?_, hm⟩
      intro c hc
      rcases List.mem_cons.mp hc with rfl | hc
      · assumption
      · have := this.1 c hc; simp only; omega
    · refine List.pairwise_cons.mpr ⟨?_, ih this.2 (fun c hc => ha c (List.mem_cons_of_mem _ hc))⟩
      intro c hc
      rcases (mem_insertCell m a v c).mp hc with rfl | hc
      · have := ha d List.mem_cons_self; simp only; omega
      · exact this.1 c hc

/-- A byte write keeps the canonical form. -/
theorem writeByte_wf (m : Memory) (a : Nat) (v : Byte) (hm : Memory.wf m) (ha : a < 2 * memoryWords) :
    Memory.wf (writeByte m a v) := by
  have he : Memory.wf (eraseCell a m) :=
    ⟨hm.1.sublist (eraseCell_sublist m a), fun c hc => hm.2 c ((eraseCell_sublist m a).subset hc)⟩
  unfold writeByte
  split
  · exact he
  · refine ⟨insertCell_rising _ _ _ he.1 (not_mem_eraseCell m a), fun c hc => ?_⟩
    rcases (mem_insertCell _ _ _ _).mp hc with rfl | hc
    · exact ⟨‹_›, ha⟩
    · exact he.2 c hc

/-- A word write keeps the canonical form. -/
theorem writeWord_wf (m : Memory) (a : Nat) (v : Word) (hm : Memory.wf m) (ha : a < memoryWords) :
    Memory.wf (writeWord m a v) :=
  writeByte_wf _ _ _ (writeByte_wf _ _ _ hm (by omega)) (by omega)

/-- Writing words keeps the canonical form. -/
theorem writeWords_wf (m : Memory) (a : Nat) (ws : List Word) (hm : Memory.wf m) : Memory.wf (writeWords m a ws) := by
  induction ws generalizing m a with
  | nil => exact hm
  | cons w ws ih =>
    rw [writeWords]
    refine ih _ _ ?_
    split
    · exact writeWord_wf _ _ _ hm ‹_›
    · exact hm

/-- The memory after reset is in canonical form. -/
theorem reset_mem_wf : Memory.wf State.reset.mem := by decide

/-- In canonical form, equal reads mean equal memories: equal memories are equal data. -/
theorem wf_ext {m m' : Memory} (h : Memory.wf m) (h' : Memory.wf m') (hr : ∀ a, readByte m a = readByte m' a) :
    m = m' := by
  have below : ∀ (m : Memory) (a : Nat), (∀ c ∈ m, a < c.1) → readByte m a = unlistedByte := by
    intro m a hm
    induction m with
    | nil => rfl
    | cons c m ih => grind [readByte]
  induction m generalizing m' with
  | nil =>
    cases m' with
    | nil => rfl
    | cons c m' =>
      have := hr c.1
      simp only [readByte, if_true] at this
      exact absurd this.symm (h'.2 c List.mem_cons_self).1
  | cons c m ih =>
    cases m' with
    | nil =>
      have := hr c.1
      simp only [readByte, if_true] at this
      exact absurd this (h.2 c List.mem_cons_self).1
    | cons c' m' =>
      have p := List.pairwise_cons.mp h.1
      have p' := List.pairwise_cons.mp h'.1
      have hc := h.2 c List.mem_cons_self
      have hc' := h'.2 c' List.mem_cons_self
      have key : c.1 = c'.1 := by
        rcases Nat.lt_trichotomy c.1 c'.1 with hlt | heq | hgt
        · have := hr c.1
          rw [below (c' :: m') c.1 (by
            intro d hd; rcases List.mem_cons.mp hd with rfl | hd
            · exact hlt
            · exact Nat.lt_trans hlt (p'.1 d hd))] at this
          simp only [readByte, if_true] at this
          exact absurd this hc.1
        · exact heq
        · have := hr c'.1
          rw [below (c :: m) c'.1 (by
            intro d hd; rcases List.mem_cons.mp hd with rfl | hd
            · exact hgt
            · exact Nat.lt_trans hgt (p.1 d hd))] at this
          simp only [readByte, if_true] at this
          exact absurd this.symm hc'.1
      have kv : c.2 = c'.2 := by
        have := hr c.1
        simpa [readByte, key] using this
      have e : c = c' := Prod.ext key kv
      subst e
      congr 1
      refine ih ⟨p.2, fun d hd => h.2 d (List.mem_cons_of_mem _ hd)⟩
        ⟨p'.2, fun d hd => h'.2 d (List.mem_cons_of_mem _ hd)⟩ (fun a => ?_)
      by_cases ha : c.1 = a
      · subst ha
        rw [below m _ p.1, below m' _ p'.1]
      · have := hr a
        simpa [readByte, ha] using this

end Sys2Proof.Machine
end

