-- ==== Sys2Proof/Laws/PerInstr.lean ====
section
/-! SUPPORT. Laws made per instruction, one lemma per constructor of Instr. `EncodedShape` is about the instruction as
syntax (30_encoding.md R50, R51, R57): its opcode is one of the 22, and its number of operand words is the arity of its
opcode. `DecodedForm` says that the opcode map takes the opcode word and the operand words of the instruction back to
it, whatever words follow. -/

namespace Sys2Proof.Laws

/-- The opcode is in 0..21, and there are as many operand words as its arity says. -/
def EncodedShape.Statement (i : Instr) : Prop := i.opcode ≤ 21 ∧ i.operands.length = arity i.opcode

/-- The opcode map on the instruction's own words. -/
def DecodedForm.Statement (i : Instr) : Prop :=
  ∀ rest : List Word, decodeOperands (BitVec.ofNat 16 i.opcode) (i.operands ++ rest) = .ok (i, rest)

theorem EncodedShape.halt : EncodedShape.Statement .halt := ⟨by simp [Instr.opcode], rfl⟩
theorem EncodedShape.set (dst b : Word) : EncodedShape.Statement (.set dst b) := ⟨by simp [Instr.opcode], rfl⟩
theorem EncodedShape.push (a : Word) : EncodedShape.Statement (.push a) := ⟨by simp [Instr.opcode], rfl⟩
theorem EncodedShape.pop (dst : Word) : EncodedShape.Statement (.pop dst) := ⟨by simp [Instr.opcode], rfl⟩
theorem EncodedShape.eq (dst b c : Word) : EncodedShape.Statement (.eq dst b c) := ⟨by simp [Instr.opcode], rfl⟩
theorem EncodedShape.gt (dst b c : Word) : EncodedShape.Statement (.gt dst b c) := ⟨by simp [Instr.opcode], rfl⟩
theorem EncodedShape.jmp (a : Word) : EncodedShape.Statement (.jmp a) := ⟨by simp [Instr.opcode], rfl⟩
theorem EncodedShape.jt (a b : Word) : EncodedShape.Statement (.jt a b) := ⟨by simp [Instr.opcode], rfl⟩
theorem EncodedShape.jf (a b : Word) : EncodedShape.Statement (.jf a b) := ⟨by simp [Instr.opcode], rfl⟩
theorem EncodedShape.add (dst b c : Word) : EncodedShape.Statement (.add dst b c) := ⟨by simp [Instr.opcode], rfl⟩
theorem EncodedShape.mult (dst b c : Word) : EncodedShape.Statement (.mult dst b c) := ⟨by simp [Instr.opcode], rfl⟩
theorem EncodedShape.mod (dst b c : Word) : EncodedShape.Statement (.mod dst b c) := ⟨by simp [Instr.opcode], rfl⟩
theorem EncodedShape.and (dst b c : Word) : EncodedShape.Statement (.and dst b c) := ⟨by simp [Instr.opcode], rfl⟩
theorem EncodedShape.or (dst b c : Word) : EncodedShape.Statement (.or dst b c) := ⟨by simp [Instr.opcode], rfl⟩
theorem EncodedShape.not (dst b : Word) : EncodedShape.Statement (.not dst b) := ⟨by simp [Instr.opcode], rfl⟩
theorem EncodedShape.rmem (dst b : Word) : EncodedShape.Statement (.rmem dst b) := ⟨by simp [Instr.opcode], rfl⟩
theorem EncodedShape.wmem (a b : Word) : EncodedShape.Statement (.wmem a b) := ⟨by simp [Instr.opcode], rfl⟩
theorem EncodedShape.call (a : Word) : EncodedShape.Statement (.call a) := ⟨by simp [Instr.opcode], rfl⟩
theorem EncodedShape.ret : EncodedShape.Statement .ret := ⟨by simp [Instr.opcode], rfl⟩
theorem EncodedShape.out (a : Word) : EncodedShape.Statement (.out a) := ⟨by simp [Instr.opcode], rfl⟩
theorem EncodedShape.input (dst : Word) : EncodedShape.Statement (.input dst) := ⟨by simp [Instr.opcode], rfl⟩
theorem EncodedShape.noop : EncodedShape.Statement .noop := ⟨by simp [Instr.opcode], rfl⟩

theorem DecodedForm.halt : DecodedForm.Statement .halt := fun _ => rfl
theorem DecodedForm.set (dst b : Word) : DecodedForm.Statement (.set dst b) := fun _ => rfl
theorem DecodedForm.push (a : Word) : DecodedForm.Statement (.push a) := fun _ => rfl
theorem DecodedForm.pop (dst : Word) : DecodedForm.Statement (.pop dst) := fun _ => rfl
theorem DecodedForm.eq (dst b c : Word) : DecodedForm.Statement (.eq dst b c) := fun _ => rfl
theorem DecodedForm.gt (dst b c : Word) : DecodedForm.Statement (.gt dst b c) := fun _ => rfl
theorem DecodedForm.jmp (a : Word) : DecodedForm.Statement (.jmp a) := fun _ => rfl
theorem DecodedForm.jt (a b : Word) : DecodedForm.Statement (.jt a b) := fun _ => rfl
theorem DecodedForm.jf (a b : Word) : DecodedForm.Statement (.jf a b) := fun _ => rfl
theorem DecodedForm.add (dst b c : Word) : DecodedForm.Statement (.add dst b c) := fun _ => rfl
theorem DecodedForm.mult (dst b c : Word) : DecodedForm.Statement (.mult dst b c) := fun _ => rfl
theorem DecodedForm.mod (dst b c : Word) : DecodedForm.Statement (.mod dst b c) := fun _ => rfl
theorem DecodedForm.and (dst b c : Word) : DecodedForm.Statement (.and dst b c) := fun _ => rfl
theorem DecodedForm.or (dst b c : Word) : DecodedForm.Statement (.or dst b c) := fun _ => rfl
theorem DecodedForm.not (dst b : Word) : DecodedForm.Statement (.not dst b) := fun _ => rfl
theorem DecodedForm.rmem (dst b : Word) : DecodedForm.Statement (.rmem dst b) := fun _ => rfl
theorem DecodedForm.wmem (a b : Word) : DecodedForm.Statement (.wmem a b) := fun _ => rfl
theorem DecodedForm.call (a : Word) : DecodedForm.Statement (.call a) := fun _ => rfl
theorem DecodedForm.ret : DecodedForm.Statement .ret := fun _ => rfl
theorem DecodedForm.out (a : Word) : DecodedForm.Statement (.out a) := fun _ => rfl
theorem DecodedForm.input (dst : Word) : DecodedForm.Statement (.input dst) := fun _ => rfl
theorem DecodedForm.noop : DecodedForm.Statement .noop := fun _ => rfl

end Sys2Proof.Laws
end

