-- ==== Sys2Proof/Laws/Fetch.lean ====
section
/-! SUPPORT. Fetching: what the decoder reads from memory, and when an instruction that stands in memory is the one
decoded. -/

namespace Sys2Proof.Machine

theorem fetchWords_length (m : Memory) (n p : Nat) : (fetchWords m n p).length = min n (memoryWords - p) := by
  induction n generalizing p with
  | zero => simp [fetchWords]
  | succ n ih =>
    rw [fetchWords]
    split
    · rw [List.length_cons, ih]; omega
    · simp; omega

theorem fetchWords_getElem (m : Memory) (n p k : Nat) (h : k < (fetchWords m n p).length) :
    (fetchWords m n p)[k] = readWord m (p + k) := by
  induction n generalizing p k with
  | zero => simp [fetchWords] at h
  | succ n ih =>
    have hp : p < memoryWords := by
      rw [fetchWords_length] at h; omega
    cases k with
    | zero => simp [fetchWords, hp]
    | succ k =>
      simp only [fetchWords, hp, if_true, List.getElem_cons_succ]
      rw [ih, Nat.add_assoc, Nat.add_comm 1 k]

/-- Words that stand in memory are a beginning of what is fetched. -/
theorem fetchWords_of_words (m : Memory) (n p : Nat) (ws : List Word) (hn : ws.length ≤ n)
    (hp : p + ws.length ≤ memoryWords) (hw : ∀ k (h : k < ws.length), readWord m (p + k) = ws[k]) :
    ∃ rest, fetchWords m n p = ws ++ rest := by
  refine ⟨(fetchWords m n p).drop ws.length, ?_⟩
  have htake : (fetchWords m n p).take ws.length = ws := by
    apply List.ext_getElem
    · rw [List.length_take, fetchWords_length]; omega
    · intro k h1 h2
      rw [List.getElem_take, fetchWords_getElem, hw k h2]
  conv_lhs => rw [← List.take_append_drop ws.length (fetchWords m n p), htake]

/-- The next word fetched when `pc` is in range. -/
theorem fetchWords_cons (m : Memory) (n p : Nat) (hp : p < memoryWords) :
    fetchWords m (n + 1) p = readWord m p :: fetchWords m n (p + 1) := by
  rw [fetchWords, if_pos hp]

/-- Nothing is fetched beyond memory. -/
theorem fetchWords_beyond (m : Memory) (n p : Nat) (hp : memoryWords ≤ p) : fetchWords m n p = [] := by
  cases n with
  | zero => rfl
  | succ n => rw [fetchWords, if_neg (by omega)]

end Sys2Proof.Machine
end

