-- ==== Sys2Proof/Tests/Slice0.lean ====
section
/-! SUPPORT. The model's own tests. Expected results come from spec/: the opcode map (30_encoding.md R57), the test
vectors (95_test_vectors.md, by their ids) and the examples of the rules. Then one witness for the hypotheses of every
statement, clause by clause, at boundary values. -/

namespace Sys2Proof.Tests

open Sys2Proof.Machine Sys2Proof.Safety

/-! ### Small states -/

/-- A reset machine with `ws` loaded at address 0. -/
def boot (ws : List Word) : State := State.reset.withMem (writeWords [] 0 ws)

/-- A machine in the literal mode. -/
def literal (s : State) : State := { s with cfg := { s.cfg with highRawMode := .literal } }

/-- A machine with a finite STACK_CAPACITY. -/
def capacity (n : Nat) (s : State) : State := { s with cfg := { s.cfg with stackCapacity := some n } }

/-- A machine with a finite MAX_LINE_BYTES. -/
def lineLimit (n : Nat) (s : State) : State := { s with cfg := { s.cfg with maxLineBytes := some n } }

/-- The state an outcome goes on to; the reset state where it does not. -/
def nextOf : Result → State
  | .next t => t
  | _ => State.reset

/-- What is seen of the next state. -/
def after {α : Type} (r : Result) (f : State → α) : Option α :=
  match r with
  | .next t => some (f t)
  | _ => none

/-- The fault record (60_exceptions.md R100): kind, `fault_info`, `fault_pc`, and `pc`. -/
def faultOf (t : State) : RunStatus × FaultKind × Word × Word × Word :=
  (t.status.run, t.status.faultKind, t.status.faultInfo, t.status.faultPc, t.pc)

/-- The graceful end (60_exceptions.md R101): cause and `pc`. -/
def endOf (t : State) : RunStatus × HaltCause × Word := (t.status.run, t.status.haltCause, t.pc)

/-! ### Well-formedness: each check refuses an ill-formed term (30_encoding.md R65) -/

theorem test_wf_set_dst : (Instr.set 5 7).wellFormed = false := by decide
theorem test_wf_set_value : (Instr.set 32768 32776).wellFormed = false := by decide
theorem test_wf_push : (Instr.push 65535).wellFormed = false := by decide
theorem test_wf_pop : (Instr.pop 32767).wellFormed = false := by decide
theorem test_wf_binary_dst :
    [Instr.eq 1 0 0, .gt 1 0 0, .add 1 0 0, .mult 1 0 0, .mod 1 0 0, .and 1 0 0, .or 32776 0 0].all
      (fun i => !i.wellFormed) = true := by decide
theorem test_wf_binary_b :
    [Instr.eq 32768 32776 0, .gt 32768 40000 0, .add 32768 40000 0, .mult 32768 40000 0, .mod 32768 40000 0,
      .and 32768 40000 0, .or 32768 40000 0].all (fun i => !i.wellFormed) = true := by decide
theorem test_wf_binary_c :
    [Instr.eq 32768 0 32776, .gt 32768 0 40000, .add 32768 0 40000, .mult 32768 0 40000, .mod 32768 0 40000,
      .and 32768 0 40000, .or 32768 0 40000].all (fun i => !i.wellFormed) = true := by decide
theorem test_wf_unary :
    [Instr.not 5 0, .not 32768 32776, .rmem 5 0, .rmem 32768 32776].all (fun i => !i.wellFormed) = true := by decide
theorem test_wf_two_values :
    [Instr.jt 32776 0, .jt 0 32776, .jf 32776 0, .jf 0 32776, .wmem 32776 0, .wmem 0 32776].all
      (fun i => !i.wellFormed) = true := by decide
theorem test_wf_one_operand :
    [Instr.jmp 32776, .call 32776, .out 32776, .input 32767, .input 32776].all (fun i => !i.wellFormed) = true := by
  decide
theorem test_wf_accepts :
    [Instr.halt, .ret, .noop, .add 32775 32767 32775, .input 32768, .wmem 32775 0].all Instr.wellFormed = true := by
  decide

/-! ### Decoding: every constructor from words written out from the opcode map (30_encoding.md R57) -/

theorem test_decode_halt : decode [0#16] = .ok (.halt, []) := rfl
theorem test_decode_set : decode [1#16, 32769#16, 300#16] = .ok (.set 32769 300, []) := rfl
theorem test_decode_push : decode [2#16, 32768#16] = .ok (.push 32768, []) := rfl
theorem test_decode_pop : decode [3#16, 32770#16] = .ok (.pop 32770, []) := rfl
theorem test_decode_eq : decode [4#16, 32768#16, 32769#16, 5#16] = .ok (.eq 32768 32769 5, []) := rfl
theorem test_decode_gt : decode [5#16, 32770#16, 3#16, 2#16] = .ok (.gt 32770 3 2, []) := rfl
theorem test_decode_jmp : decode [6#16, 7#16] = .ok (.jmp 7, []) := rfl
theorem test_decode_jt : decode [7#16, 32768#16, 20#16] = .ok (.jt 32768 20, []) := rfl
theorem test_decode_jf : decode [8#16, 0#16, 9#16] = .ok (.jf 0 9, []) := rfl
theorem test_decode_add : decode [9#16, 32768#16, 32767#16, 2#16, 0#16] = .ok (.add 32768 32767 2, [0]) := rfl
theorem test_decode_mult : decode [10#16, 32768#16, 200#16, 201#16] = .ok (.mult 32768 200 201, []) := rfl
theorem test_decode_mod : decode [11#16, 32768#16, 10#16, 3#16] = .ok (.mod 32768 10 3, []) := rfl
theorem test_decode_and : decode [12#16, 32768#16, 12#16, 10#16] = .ok (.and 32768 12 10, []) := rfl
theorem test_decode_or : decode [13#16, 32768#16, 12#16, 10#16] = .ok (.or 32768 12 10, []) := rfl
theorem test_decode_not : decode [14#16, 32768#16, 21845#16] = .ok (.not 32768 21845, []) := rfl
theorem test_decode_rmem : decode [15#16, 32768#16, 100#16] = .ok (.rmem 32768 100, []) := rfl
theorem test_decode_wmem : decode [16#16, 100#16, 72#16] = .ok (.wmem 100 72, []) := rfl
theorem test_decode_call : decode [17#16, 10#16] = .ok (.call 10, []) := rfl
theorem test_decode_ret : decode [18#16] = .ok (.ret, []) := rfl
theorem test_decode_out : decode [19#16, 65#16] = .ok (.out 65, []) := rfl
theorem test_decode_in : decode [20#16, 32768#16] = .ok (.input 32768, []) := rfl
theorem test_decode_noop : decode [21#16] = .ok (.noop, []) := rfl
/-- C2: a register-reference value is no opcode. -/
theorem test_decode_illegal : decode [32768#16, 1#16] = .error (.invalidOpcode 32768) := rfl
theorem test_decode_missing : decode [9#16, 32768#16] = .error (.missingWord 2) := rfl
/-- Little-endian image bytes (70_reset_and_hazards.md R114): 19, 65, and a trailing odd byte. -/
theorem test_decode_bytes : decodeBytes [19#8, 0#8, 65#8, 0#8, 7#8] = .ok (.out 65, []) := rfl
theorem test_encode_gt : encode (.gt 32770 3 2) = [5#16, 32770#16, 3#16, 2#16] := rfl
/-- The table's numbering: the operand words count on from bit 16. -/
theorem test_table_word : decodeTableWord 48 (1 + 32769 * 65536 + 300 * 65536 * 65536) = some (.set 32769 300) := by decide
theorem test_table_word_short : decodeTableWord 16 9 = some (.add 0 0 0) := by decide
theorem test_table_word_illegal : decodeTableWord 16 22 = none := by decide
/-- The step after `withFetchWord` at reset runs that instruction. -/
theorem test_withFetchWord : after (step (State.reset.withFetchWord 32 (19 + 65 * 65536))) State.out = some [65] := by
  decide

/-! ### The fault codes (60_exceptions.md R97) -/

theorem test_fault_codes :
    [FaultKind.none, .invalidOpcode, .fetchOutOfRange, .invalidRegister, .invalidOperand, .stackEmpty, .memoryOutOfRange,
      .divideByZero, .inputExhausted, .stackOverflow].map FaultKind.code = [0, 1, 2, 3, 4, 5, 6, 7, 8, 9] := by decide

/-! ### One step each (95_test_vectors.md) -/

/-- C1. -/
theorem test_step_illegal : after (step (boot [65535])) faultOf = some (.faulted, .invalidOpcode, 65535, 0, 0) := by decide
/-- C5. -/
theorem test_step_operand_fetch :
    after (step ((State.reset.withMem (writeWords [] 32766 [9, 32768])).withPc 32766)) faultOf =
      some (.faulted, .fetchOutOfRange, 32768, 32766, 32766) := by decide
/-- C6. -/
theorem test_step_pc_out_of_range :
    after (step (State.reset.withPc 40000)) faultOf = some (.faulted, .fetchOutOfRange, 40000, 40000, 40000) := by decide

/-- M2. -/
theorem test_set_verbatim :
    after (step ((boot [1, 32768, 32770]).withReg 2 40000)) (fun t => (t.reg 0, t.pc)) = some (40000, 3) := by decide
/-- M4: the literal mode. -/
theorem test_set_literal_mode : after (step (literal (boot [1, 32768, 32776]))) (fun t => t.reg 0) = some 32776 := by decide
/-- M6. -/
theorem test_push : after (step ((boot [2, 32768]).withReg 0 7)) (fun t => (t.stack, t.pc)) = some ([7], 2) := by decide
/-- M10. -/
theorem test_push_overflow :
    after (step ((capacity 1 (boot [2, 6])).withStack [5])) (fun t => (faultOf t, t.stack)) =
      some ((.faulted, .stackOverflow, 0, 0, 0), [5]) := by decide
/-- M7. -/
theorem test_pop :
    after (step ((boot [3, 32770]).withStack [7, 3])) (fun t => (t.reg 2, t.stack)) = some (7, [3]) := by decide
/-- M9: the register check comes first. -/
theorem test_pop_priority : after (step (boot [3, 3])) faultOf = some (.faulted, .invalidRegister, 3, 0, 0) := by decide
/-- A3: full-word comparison. -/
theorem test_eq_full_word :
    after (step (((boot [4, 32768, 32769, 7232]).withReg 1 40000).withReg 0 9)) (fun t => t.reg 0) = some 0 := by decide
/-- A1. -/
theorem test_eq_true : after (step ((boot [4, 32768, 32769, 5]).withReg 1 5)) (fun t => t.reg 0) = some 1 := by decide
/-- A5: strict. -/
theorem test_gt_strict : after (step ((boot [5, 32770, 2, 2]).withReg 2 9)) (fun t => t.reg 2) = some 0 := by decide
/-- A6: unsigned. -/
theorem test_gt_unsigned :
    after (step ((boot [5, 32768, 32769, 32767]).withReg 1 40000)) (fun t => t.reg 0) = some 1 := by decide
/-- J2: an unchecked target. -/
theorem test_jmp_unchecked : after (step ((boot [6, 32768]).withReg 0 40000)) State.pc = some 40000 := by decide
/-- J5. -/
theorem test_jt_taken : after (step ((boot [7, 32768, 20]).withReg 0 32768)) State.pc = some 20 := by decide
/-- J8: not taken, but resolved. -/
theorem test_jt_resolves_target :
    after (step (boot [7, 0, 40000])) faultOf = some (.faulted, .invalidOperand, 40000, 0, 0) := by decide
/-- J6. -/
theorem test_jf_taken : after (step (boot [8, 0, 9])) State.pc = some 9 := by decide
/-- J7: 32768 is not 0. -/
theorem test_jf_falls : after (step ((boot [8, 32768, 9]).withReg 0 32768)) State.pc = some 3 := by decide
/-- S7. -/
theorem test_add_wraps : after (step (boot [9, 32768, 32767, 2, 0])) (fun t => (t.reg 0, t.pc)) = some (1, 4) := by decide
/-- A10: the exact sum of 65535 and 65535. -/
theorem test_add_wide :
    after (step (((boot [9, 32768, 32769, 32770]).withReg 1 65535).withReg 2 65535)) (fun t => t.reg 0) =
      some 32766 := by decide
/-- A12. -/
theorem test_mult_wraps : after (step (boot [10, 32768, 32767, 32767])) (fun t => t.reg 0) = some 1 := by decide
/-- A18. -/
theorem test_mod_by_zero :
    after (step ((boot [11, 32768, 5, 0]).withReg 0 9)) (fun t => (faultOf t, t.reg 0)) =
      some ((.faulted, .divideByZero, 0, 0, 0), 9) := by decide
/-- A19. -/
theorem test_mod_reduced :
    after (step (((boot [11, 32768, 32769, 32770]).withReg 1 40000).withReg 2 50000)) (fun t => t.reg 0) =
      some 7232 := by decide
/-- A22. -/
theorem test_and_reduced :
    after (step ((boot [12, 32768, 32769, 32769]).withReg 1 40000)) (fun t => t.reg 0) = some 7232 := by decide
/-- A24. -/
theorem test_or_reduced : after (step ((boot [13, 32768, 32769, 1]).withReg 1 40000)) (fun t => t.reg 0) = some 7233 := by
  decide
/-- A28: bit 15 of the operand is ignored. -/
theorem test_not_15_bits : after (step ((boot [14, 32768, 32769]).withReg 1 40000)) (fun t => t.reg 0) = some 25535 := by
  decide
/-- R2: the source is also the destination. -/
theorem test_rmem_same_register : after (step (boot [15, 32768, 32768])) (fun t => t.reg 0) = some 15 := by decide
/-- R4. -/
theorem test_rmem_out_of_range :
    after (step ((boot [15, 32769, 32768]).withReg 0 32768)) faultOf =
      some (.faulted, .memoryOutOfRange, 32768, 0, 0) := by decide
/-- R6: `a` is an address held in a register, and the data is not reduced. -/
theorem test_wmem_register_address :
    after (step (((boot [16, 32768, 32769]).withReg 0 200).withReg 1 40000)) (fun t => (readWord t.mem 200, t.reg 0)) =
      some (40000, 200) := by decide
/-- R10: over its own opcode word; memory of the three words is then only its zero bytes. -/
theorem test_wmem_own_word :
    after (step (boot [16, 0, 0])) (fun t => (t.mem, t.pc)) = some ([], 3) := by decide
/-- J10: the return address 32768. -/
theorem test_call_at_top :
    after (step ((State.reset.withMem (writeWords [] 32766 [17, 5])).withPc 32766)) (fun t => (t.stack, t.pc)) =
      some ([32768], 5) := by decide
/-- J11. -/
theorem test_ret_pops : after (step ((boot [18]).withStack [6])) (fun t => (t.pc, t.stack)) = some (6, []) := by decide
/-- S9. -/
theorem test_ret_empty : after (step (boot [18])) endOf = some (.halted, .retEmpty, 1) := by decide
/-- H1. -/
theorem test_halt : after (step (boot [0])) endOf = some (.halted, .haltInstr, 1) := by decide
/-- O2: the low 8 bits, at the end of the trace. -/
theorem test_out_low_byte : after (step ((boot [19, 321]).withOut [7])) State.out = some [7, 65] := by decide
/-- I1. -/
theorem test_in_refills :
    after (step ((boot [20, 32768]).answerLine (.line [97, 98, 99]))) (fun t => (t.reg 0, t.inq, t.lineIn)) =
      some (97, [98, 99, 10], []) := by decide
/-- I4. -/
theorem test_in_exhausted :
    after (step ((boot [20, 32768]).answerLine .exhausted)) faultOf = some (.faulted, .inputExhausted, 0, 0, 0) := by
  decide
/-- N1. -/
theorem test_noop : after (step (boot [21])) State.pc = some 1 := by decide

/-! ### Witnesses: a state and operands that meet the hypotheses of every statement -/

/-- r0 = 9, r7 = 65535, a stack of one word. -/
def w0 : State := ((State.reset.withReg 0 9).withReg 7 65535).withStack [5]

/-- A literal operand. -/
theorem lit (s : State) (w : Word) (h : w.toNat < 32768) : HasValue s w w := .inl ⟨h, rfl⟩

/-- A register operand. -/
theorem regv (s : State) (w : Word) (d : Fin 8) (h : NamesRegister w d) : HasValue s w (s.reg d) := .inr (.inl ⟨d, h, rfl⟩)

theorem names_first : NamesRegister 32768 0 := rfl
theorem names_last : NamesRegister 32775 7 := rfl
theorem not_below : NotRegister 32767 := .inl (by decide)
theorem not_above : NotRegister 32776 := .inr (by decide)
theorem no_value_first : NoValue w0 32776 := ⟨by decide, rfl⟩
theorem no_value_last : NoValue w0 65535 := ⟨by decide, rfl⟩
theorem literal_value : HasValue (literal w0) 32776 32776 := .inr (.inr ⟨by decide, rfl, rfl⟩)
theorem r7_value : HasValue w0 32775 65535 := regv w0 32775 7 rfl

/-- The clauses of a binary ALU statement. -/
def BinaryWitness : Prop :=
  (NamesRegister 32775 7 ∧ HasValue w0 32767 32767 ∧ HasValue w0 32775 65535) ∧
  (NamesRegister 32768 0 ∧ HasValue (literal w0) 32776 32776) ∧
  (NotRegister 32767 ∧ NotRegister 32776) ∧
  (NamesRegister 32768 0 ∧ NoValue w0 32776) ∧
  (NamesRegister 32768 0 ∧ HasValue w0 32767 32767 ∧ NoValue w0 65535)

theorem binaryWitness : BinaryWitness :=
  ⟨⟨names_last, lit _ _ (by decide), r7_value⟩, ⟨names_first, literal_value⟩, ⟨not_below, not_above⟩,
    ⟨names_first, no_value_first⟩, ⟨names_first, lit _ _ (by decide), no_value_last⟩⟩

theorem witness_EqInstruction : BinaryWitness := binaryWitness
theorem witness_GtInstruction : BinaryWitness := binaryWitness
theorem witness_AddInstruction : BinaryWitness := binaryWitness
theorem witness_MultInstruction : BinaryWitness := binaryWitness
theorem witness_AndInstruction : BinaryWitness := binaryWitness
theorem witness_OrInstruction : BinaryWitness := binaryWitness
theorem witness_ModInstruction :
    BinaryWitness ∧ (NamesRegister 32768 0 ∧ HasValue w0 32775 65535 ∧ HasValue w0 1 1 ∧ (1 : Word) ≠ 0) ∧
    (NamesRegister 32768 0 ∧ HasValue w0 32775 65535 ∧ HasValue w0 0 0) :=
  ⟨binaryWitness, ⟨names_first, r7_value, lit _ _ (by decide), by decide⟩, names_first, r7_value, lit _ _ (by decide)⟩

/-- The clauses of a statement with one register and one value operand. -/
def UnaryWitness : Prop :=
  (NamesRegister 32775 7 ∧ HasValue w0 32775 65535) ∧ (NamesRegister 32768 0 ∧ HasValue w0 32767 32767) ∧
  (NotRegister 32767 ∧ NotRegister 32776) ∧ (NamesRegister 32768 0 ∧ NoValue w0 32776)

theorem unaryWitness : UnaryWitness :=
  ⟨⟨names_last, r7_value⟩, ⟨names_first, lit _ _ (by decide)⟩, ⟨not_below, not_above⟩, names_first, no_value_first⟩

theorem witness_SetInstruction : UnaryWitness := unaryWitness
theorem witness_NotInstruction : UnaryWitness := unaryWitness
theorem witness_RmemInstruction :
    UnaryWitness ∧ (NamesRegister 32768 0 ∧ HasValue w0 32767 32767 ∧ (32767 : Word).toNat < 32768) ∧
    (NamesRegister 32768 0 ∧ HasValue (w0.withReg 0 32768) 32768 32768 ∧ 32768 ≤ (32768 : Word).toNat) :=
  ⟨unaryWitness, ⟨names_first, lit _ _ (by decide), by decide⟩, names_first,
    regv (w0.withReg 0 32768) 32768 0 rfl, by decide⟩

/-- Stacks with room, and full ones. -/
theorem witness_room : StackHasRoom w0 ∧ StackHasRoom (capacity 2 w0) ∧ StackIsFull (capacity 1 w0) := by
  refine ⟨fun n h => ?_, fun n h => ?_, 1, rfl, rfl⟩
  · simp [w0, State.reset, Config.standard] at h
  · obtain rfl : 2 = n := by simpa [capacity] using h
    decide

theorem witness_PushInstruction :
    (HasValue w0 32775 65535 ∧ StackHasRoom w0) ∧ (HasValue (capacity 2 w0) 32767 32767 ∧ StackHasRoom (capacity 2 w0)) ∧
    NoValue w0 32776 ∧ (HasValue (capacity 1 w0) 0 0 ∧ StackIsFull (capacity 1 w0)) :=
  ⟨⟨r7_value, witness_room.1⟩, ⟨lit _ _ (by decide), witness_room.2.1⟩, no_value_first, lit _ _ (by decide),
    witness_room.2.2⟩
theorem witness_CallInstruction :
    (HasValue w0 32775 65535 ∧ StackHasRoom w0) ∧ (HasValue (capacity 2 w0) 32767 32767 ∧ StackHasRoom (capacity 2 w0)) ∧
    NoValue w0 32776 ∧ (HasValue (capacity 1 w0) 0 0 ∧ StackIsFull (capacity 1 w0)) :=
  witness_PushInstruction
theorem witness_PopInstruction :
    (NamesRegister 32775 7 ∧ w0.stack = [5]) ∧ (NotRegister 32767 ∧ NotRegister 32776) ∧
    (NamesRegister 32768 0 ∧ State.reset.stack = []) :=
  ⟨⟨names_last, rfl⟩, ⟨not_below, not_above⟩, names_first, rfl⟩
theorem witness_JmpInstruction : (HasValue w0 32775 65535 ∧ HasValue w0 32767 32767) ∧ NoValue w0 32776 :=
  ⟨⟨r7_value, lit _ _ (by decide)⟩, no_value_first⟩
/-- The clauses of a conditional branch: a nonzero condition, a zero one, each operand without a value. -/
def BranchWitness : Prop :=
  (HasValue w0 32775 65535 ∧ HasValue w0 32767 32767 ∧ (65535 : Word) ≠ 0) ∧
  (HasValue w0 0 0 ∧ HasValue w0 32767 32767) ∧ NoValue w0 32776 ∧ (HasValue w0 0 0 ∧ NoValue w0 65535)

theorem branchWitness : BranchWitness :=
  ⟨⟨r7_value, lit _ _ (by decide), by decide⟩, ⟨lit _ _ (by decide), lit _ _ (by decide)⟩, no_value_first,
    lit _ _ (by decide), no_value_last⟩

theorem witness_JtInstruction : BranchWitness := branchWitness
theorem witness_JfInstruction : BranchWitness := branchWitness
theorem witness_RetInstruction : w0.stack = [5] ∧ State.reset.stack = [] := ⟨rfl, rfl⟩
theorem witness_WmemInstruction :
    (HasValue w0 32767 32767 ∧ HasValue w0 32775 65535 ∧ (32767 : Word).toNat < 32768) ∧ NoValue w0 32776 ∧
    (HasValue w0 0 0 ∧ NoValue w0 32776) ∧
    (HasValue (w0.withReg 0 32768) 32768 32768 ∧ HasValue (w0.withReg 0 32768) 1 1 ∧ 32768 ≤ (32768 : Word).toNat) :=
  ⟨⟨lit _ _ (by decide), r7_value, by decide⟩, no_value_first, ⟨lit _ _ (by decide), no_value_first⟩,
    regv (w0.withReg 0 32768) 32768 0 rfl, lit _ _ (by decide), by decide⟩
theorem witness_OutInstruction : (HasValue w0 32775 65535 ∧ HasValue w0 0 0) ∧ NoValue w0 32776 :=
  ⟨⟨r7_value, lit _ _ (by decide)⟩, no_value_first⟩
/-- `in`: a byte queued; an empty line; a line of exactly MAX_LINE_BYTES; no register; an exhausted source; no answer; a
line one byte too long. -/
theorem witness_InInstruction :
    NamesRegister 32775 7 ∧ (w0.withInq [10]).inq = 10 :: [] ∧
    ((w0.answerLine (.line [])).inq = [] ∧ (w0.answerLine (.line [])).lineIn = .line [] :: [] ∧
      ([] : List Byte) ++ [10] = 10 :: []) ∧
    ((lineLimit 1 (w0.answerLine (.line [97]))).lineIn = .line [97] :: [] ∧
      ∀ n, (lineLimit 1 (w0.answerLine (.line [97]))).cfg.maxLineBytes = some n → [(97 : Byte)].length ≤ n) ∧
    (NotRegister 32767 ∧ NotRegister 32776) ∧
    ((w0.answerLine .exhausted).inq = [] ∧ (w0.answerLine .exhausted).lineIn = .exhausted :: []) ∧
    (w0.inq = [] ∧ w0.lineIn = []) ∧
    ((lineLimit 1 (w0.answerLine (.line [97, 98]))).cfg.maxLineBytes = some 1 ∧ 1 < [(97 : Byte), 98].length) := by
  refine ⟨rfl, rfl, ⟨rfl, rfl, rfl⟩, ⟨rfl, fun n h => ?_⟩, ⟨not_below, not_above⟩, ⟨rfl, rfl⟩, ⟨rfl, rfl⟩, rfl, by decide⟩
  obtain rfl : 1 = n := by simpa [lineLimit] using h
  decide

/-! Encoding and the step. -/

theorem witness_LengthFromOpcodeWord : decode [9, 32768, 1, 2, 7] = .ok (.add 32768 1 2, [7]) := rfl
theorem witness_OperandWordsNeverIllegal :
    ((21 : Word).toNat ≤ 21 ∧ arity (21 : Word).toNat ≤ ([] : List Word).length) ∧
    ((13 : Word).toNat ≤ 21 ∧ arity (13 : Word).toNat ≤ [(65535 : Word), 40000, 22].length) ∧ 21 < (22 : Word).toNat := by
  decide

/-- A running machine with `ws` at the end of memory and `pc` there. -/
def atTop (p : Nat) (ws : List Word) : State := (State.reset.withMem (writeWords [] p ws)).withPc (BitVec.ofNat 16 p)

/-- A one-word instruction in the last word of memory, and a four-word one that just fits. -/
theorem witness_StepRunsTheDecodedInstruction :
    ((atTop 32767 [21]).status.run = .running ∧ (atTop 32767 [21]).pc.toNat + (encode .noop).length ≤ 32768 ∧
      ∀ k (h : k < (encode .noop).length), readWord (atTop 32767 [21]).mem ((atTop 32767 [21]).pc.toNat + k) =
        (encode .noop)[k]) ∧
    ((atTop 32764 [9, 32768, 1, 2]).pc.toNat + (encode (.add 32768 1 2)).length ≤ 32768 ∧
      ∀ k (h : k < (encode (.add 32768 1 2)).length),
        readWord (atTop 32764 [9, 32768, 1, 2]).mem ((atTop 32764 [9, 32768, 1, 2]).pc.toNat + k) =
          (encode (.add 32768 1 2))[k]) := by decide
theorem witness_IllegalOpcodeFaults :
    (atTop 32767 [22]).status.run = .running ∧ (atTop 32767 [22]).pc.toNat < 32768 ∧
    21 < (readWord (atTop 32767 [22]).mem (atTop 32767 [22]).pc.toNat).toNat := by decide
theorem witness_FetchBeyondMemoryFaults :
    ((State.reset.withPc 32768).status.run = .running ∧ 32768 ≤ (State.reset.withPc 32768).pc.toNat) ∧
    ((atTop 32766 [9, 32768]).status.run = .running ∧ (atTop 32766 [9, 32768]).pc.toNat < 32768 ∧
      (readWord (atTop 32766 [9, 32768]).mem (atTop 32766 [9, 32768]).pc.toNat).toNat ≤ 21 ∧
      32768 ≤ (atTop 32766 [9, 32768]).pc.toNat +
        arity (readWord (atTop 32766 [9, 32768]).mem (atTop 32766 [9, 32768]).pc.toNat).toNat) := by decide
theorem witness_EndedRunsTakeNoStep :
    Ended (haltedAt State.reset .haltInstr 1) ∧ Ended (faultedAt State.reset .stackEmpty 0) := ⟨.inl rfl, .inr rfl⟩
theorem witness_ResolveValueCases :
    (32767 : Word).toNat < 32768 ∧ (32768 : Word).toNat = 32768 + (0 : Fin 8).val ∧
    (32775 : Word).toNat = 32768 + (7 : Fin 8).val ∧
    (32775 < (32776 : Word).toNat ∧ (literal w0).cfg.highRawMode = .literal) ∧
    (32775 < (32776 : Word).toNat ∧ w0.cfg.highRawMode = .fault) := by decide
theorem witness_ResolveRegisterCases :
    (32768 : Word).toNat = 32768 + (0 : Fin 8).val ∧ (32775 : Word).toNat = 32768 + (7 : Fin 8).val ∧
    (32767 : Word).toNat < 32768 ∧ 32775 < (32776 : Word).toNat := by decide

/-! Frames and whole-machine rules: instructions that answer a next state. -/

/-- What `noop` at reset leads to. -/
theorem noop_next : exec .noop State.reset = .next (State.reset.advance 1) := rfl

theorem witness_RegisterFrame :
    exec (.pop 32768) (State.reset.withStack [7]) =
      .next ((((State.reset.withStack [7]).advance 2).withStack []).withReg 0 7) ∧
    ∀ dst, destination (.pop 32768) = some dst → ¬ NamesRegister dst 1 := by
  refine ⟨rfl, fun dst h => ?_⟩
  obtain rfl : 32768 = dst := by simpa [destination] using h
  exact fun e => absurd (names_unique e names_first) (by decide)
theorem witness_MemoryFrame :
    (exec .noop State.reset = .next (State.reset.advance 1) ∧ ∀ a b, Instr.noop ≠ .wmem a b) ∧
    ((∃ t, exec (.wmem 32767 5) State.reset = .next t) ∧ HasValue State.reset 32767 32767) ∧
    (exec (.wmem 32776 5) State.reset = .next (faultedAt State.reset .invalidOperand 32776) ∧
      NoValue State.reset 32776) ∧
    (∃ t, exec (.wmem 32768 5) (State.reset.withReg 0 32768) = .next t) ∧
    (HasValue (State.reset.withReg 0 32768) 32768 32768 ∧ 32768 ≤ (32768 : Word).toNat) :=
  ⟨⟨rfl, fun _ _ => by simp⟩, ⟨⟨_, rfl⟩, lit _ _ (by decide)⟩, ⟨rfl, by decide, rfl⟩, ⟨_, rfl⟩,
    regv (State.reset.withReg 0 32768) 32768 0 rfl, by decide⟩
theorem witness_StackFrame : (∃ t, exec (.push 7) w0 = .next t ∧ t.stack = 7 :: w0.stack) ∧
    (∃ t, exec .ret w0 = .next t ∧ w0.stack = 5 :: t.stack) := ⟨⟨_, rfl, rfl⟩, _, rfl, rfl⟩
theorem witness_InputQueueFrame :
    State.reset.status.run = .running ∧
    (exec .noop State.reset = .next (State.reset.advance 1) ∧ ∀ dst, Instr.noop ≠ .input dst) ∧
    (∃ t, exec (.input 32768) (State.reset.answerLine (.line [])) = .next t ∧
      t.status = (State.reset.answerLine (.line [])).status) ∧
    (∃ t, exec (.input 32768) (State.reset.answerLine .exhausted) = .next t ∧
      t.status ≠ (State.reset.answerLine .exhausted).status) :=
  ⟨rfl, ⟨rfl, fun _ => by simp⟩, ⟨_, rfl, rfl⟩, _, rfl, by decide⟩
theorem witness_OutputTraceFrame :
    (exec .noop State.reset = .next (State.reset.advance 1) ∧ ∀ a, Instr.noop ≠ .out a) ∧
    (∃ t, exec (.out 321) State.reset = .next t ∧ t.out = [65]) ∧ (∃ t, exec (.out 32776) State.reset = .next t) :=
  ⟨⟨rfl, fun _ => by simp⟩, ⟨_, rfl, by decide⟩, _, rfl⟩
theorem witness_StatusFrame :
    (∃ t, exec .halt State.reset = .next t) ∧ (∃ t, exec .ret State.reset = .next t) ∧
    (∃ t, exec (.pop 32768) State.reset = .next t) ∧ (∃ t, exec .noop State.reset = .next t) :=
  ⟨⟨_, rfl⟩, ⟨_, rfl⟩, ⟨_, rfl⟩, _, rfl⟩

/-- Running one instruction that stands in memory. -/
theorem step_boot {ws : List Word} {i : Instr} {t : State} (hi : fetchDecode (boot ws) = .ok i)
    (ht : exec i (boot ws) = .next t) : step (boot ws) = .next t := (step_of_decoded rfl hi).trans ht

theorem fetch_noop : fetchDecode (boot [21]) = .ok .noop := by rfl
theorem fetch_pop : fetchDecode (boot [3, 32768]) = .ok (.pop 32768) := by rfl
theorem fetch_halt : fetchDecode (boot [0]) = .ok .halt := by rfl
theorem fetch_ret : fetchDecode (boot [18]) = .ok .ret := by rfl
theorem fetch_jmp : fetchDecode (boot [6, 0]) = .ok (.jmp 0) := by rfl
theorem fetch_in : fetchDecode (boot [20, 32768]) = .ok (.input 32768) := by rfl
theorem fetch_wmem : fetchDecode (boot [16, 3, 21]) = .ok (.wmem 3 21) := by rfl

theorem witness_PcAdvancesOrTransfers :
    (boot [21]).status.run = .running ∧ fetchDecode (boot [21]) = .ok .noop ∧
    step (boot [21]) = .next ((boot [21]).advance 1) ∧ ((boot [21]).advance 1).status.run ≠ .faulted :=
  ⟨rfl, fetch_noop, step_boot fetch_noop rfl, by decide⟩
theorem witness_FaultsArePrecise :
    step (boot [3, 32768]) = .next (faultedAt (boot [3, 32768]) .stackEmpty 0) ∧
    (faultedAt (boot [3, 32768]) .stackEmpty 0).status.run = .faulted :=
  ⟨step_boot fetch_pop rfl, rfl⟩
theorem witness_FaultsOnlyAsListed :
    State.reset.status.run = .running ∧
    exec (.pop 32768) State.reset = .next (faultedAt State.reset .stackEmpty 0) ∧
    exec (.mod 32768 5 0) State.reset = .next (faultedAt State.reset .divideByZero 0) ∧
    exec (.push 5) (capacity 1 w0) = .next (faultedAt (capacity 1 w0) .stackOverflow 0) := ⟨rfl, rfl, rfl, rfl⟩
theorem witness_WellFormedOperandsResolve :
    (Instr.pop 32768).wellFormed = true ∧ State.reset.status.run = .running ∧
    exec (.pop 32768) State.reset = .next (faultedAt State.reset .stackEmpty 0) ∧
    (faultedAt State.reset .stackEmpty 0).status.run = .faulted := ⟨rfl, rfl, rfl, rfl⟩
theorem witness_HaltedOnlyByHaltOrEmptyRet :
    (step (boot [0]) = .next (haltedAt (boot [0]) .haltInstr 1) ∧ EndedGracefully (haltedAt (boot [0]) .haltInstr 1)) ∧
    (step (boot [18]) = .next (haltedAt (boot [18]) .retEmpty 1) ∧
      EndedGracefully (haltedAt (boot [18]) .retEmpty 1)) :=
  ⟨⟨step_boot fetch_halt rfl, rfl⟩, step_boot fetch_ret rfl, rfl⟩
theorem witness_AluResultsInRange :
    State.reset.status.run = .running ∧ NamesRegister 32768 0 ∧
    (∃ t, exec (.add 32768 32767 32767) State.reset = .next t ∧ t.status.run = .running) ∧
    (∃ t, exec (.not 32768 0) State.reset = .next t ∧ t.status.run = .running) ∧
    (∃ t, exec (.eq 32768 0 0) State.reset = .next t ∧ t.status.run = .running) :=
  ⟨rfl, rfl, ⟨_, rfl, rfl⟩, ⟨_, rfl, rfl⟩, _, rfl, rfl⟩
theorem witness_RunningBlockSteps : State.reset.status.run = .running := rfl
theorem witness_WaitingEndsWithAnswer :
    Waiting (boot [20, 32768]) ∧
    ∀ n, (boot [20, 32768]).cfg.maxLineBytes = some n → ([] : List Byte).length ≤ n :=
  ⟨⟨rfl, ⟨32768, 0, fetch_in, rfl⟩, rfl, rfl⟩, fun _ _ => Nat.zero_le _⟩
theorem witness_RecordsAreNotRead :
    SameButRecords State.reset ((State.reset.withOut [65]).withStatus ⟨.halted, .retEmpty, .none, 3, 4⟩) ∧
    (∃ t, exec (.out 65) State.reset = .next t) ∧ exec (.input 32768) State.reset = .fault .waitInput ∧
    exec (.input 32768) (lineLimit 0 (State.reset.answerLine (.line [97]))) = .refused .lineTooLong :=
  ⟨⟨rfl, rfl, rfl, rfl, rfl, rfl, rfl⟩, ⟨_, rfl⟩, rfl, rfl⟩
theorem inv_boot_noop : Inv (boot [21]) :=
  ⟨by decide, fun n h => by simp [boot, State.reset, Config.standard] at h, rfl, by decide⟩
theorem witness_StepKeepsInvariant : Inv (boot [21]) ∧ step (boot [21]) = .next ((boot [21]).advance 1) :=
  ⟨inv_boot_noop, step_boot fetch_noop rfl⟩
theorem witness_ResetMeetsInvariant : loadImage [21, 0] State.reset = some (boot [21]) := by rfl
theorem witness_LoadPutsImageAtZero : [(21 : Byte), 0, 7].length / 2 ≤ 32768 ∧
    32768 < (List.replicate 65538 (0 : Byte)).length / 2 :=
  ⟨by decide, by rw [List.length_replicate]; decide⟩
theorem witness_CallThenRetComesBack : HasValue (capacity 2 w0) 32767 32767 ∧ StackHasRoom (capacity 2 w0) :=
  ⟨lit _ _ (by decide), witness_room.2.1⟩
theorem witness_StoreThenLoad :
    HasValue w0 32767 32767 ∧ HasValue w0 32775 65535 ∧ (32767 : Word).toNat < 32768 ∧
    ∃ t, exec (.wmem 32767 32775) w0 = .next t ∧ NamesRegister 32768 0 ∧
      (HasValue t 32767 32767 ∧ (32767 : Word).toNat < 32768) ∧ (HasValue t 0 0 ∧ (0 : Word).toNat < 32768) :=
  ⟨lit _ _ (by decide), r7_value, by decide, _, rfl, rfl, ⟨lit _ _ (by decide), by decide⟩, lit _ _ (by decide), by decide⟩
theorem witness_StoreIsFetched :
    (boot [16, 3, 21]).status.run = .running ∧ fetchDecode (boot [16, 3, 21]) = .ok (.wmem 3 21) ∧
    HasValue (boot [16, 3, 21]) 3 3 ∧ (3 : Word) = (boot [16, 3, 21]).pc + 3 ∧ (3 : Word).toNat < 32768 ∧
    Instr.noop.operands = [] ∧ HasValue (boot [16, 3, 21]) 21 (BitVec.ofNat 16 Instr.noop.opcode) ∧
    ∃ t, step (boot [16, 3, 21]) = .next t :=
  ⟨rfl, fetch_wmem, lit _ _ (by decide), by decide, by decide, rfl, lit _ 21 (by decide), _, step_boot fetch_wmem rfl⟩
theorem witness_JumpToItselfRunsForever :
    (boot [6, 0]).status.run = .running ∧ fetchDecode (boot [6, 0]) = .ok (.jmp 0) ∧
    HasValue (boot [6, 0]) 0 (boot [6, 0]).pc := ⟨rfl, fetch_jmp, lit _ _ (by decide)⟩

end Sys2Proof.Tests
end

/-! SUPPORT. The decoder, said once: every legal opcode word has one of the four shapes of operand words
(30_encoding.md R50, R57), and a successful decode takes exactly the words of the instruction it answers. -/

namespace Sys2Proof

open Sys2Proof.Machine

/-- Every instruction has a legal opcode and as many operand words as its arity says. -/
theorem encodedShape : ∀ i, Laws.EncodedShape.Statement i
  | .halt => Laws.EncodedShape.halt
  | .set dst b => Laws.EncodedShape.set dst b
  | .push a => Laws.EncodedShape.push a
  | .pop dst => Laws.EncodedShape.pop dst
  | .eq dst b c => Laws.EncodedShape.eq dst b c
  | .gt dst b c => Laws.EncodedShape.gt dst b c
  | .jmp a => Laws.EncodedShape.jmp a
  | .jt a b => Laws.EncodedShape.jt a b
  | .jf a b => Laws.EncodedShape.jf a b
  | .add dst b c => Laws.EncodedShape.add dst b c
  | .mult dst b c => Laws.EncodedShape.mult dst b c
  | .mod dst b c => Laws.EncodedShape.mod dst b c
  | .and dst b c => Laws.EncodedShape.and dst b c
  | .or dst b c => Laws.EncodedShape.or dst b c
  | .not dst b => Laws.EncodedShape.not dst b
  | .rmem dst b => Laws.EncodedShape.rmem dst b
  | .wmem a b => Laws.EncodedShape.wmem a b
  | .call a => Laws.EncodedShape.call a
  | .ret => Laws.EncodedShape.ret
  | .out a => Laws.EncodedShape.out a
  | .input dst => Laws.EncodedShape.input dst
  | .noop => Laws.EncodedShape.noop

theorem operands_length (i : Instr) : i.operands.length = arity i.opcode := (encodedShape i).2

/-- The opcode word `op` belongs to an instruction: the number of its operand words, the constructor that takes them,
and the format by which they are decoded. -/
inductive OpcodeFormat (op : Word) : Prop where
  | none (i : Instr) (arity_eq : arity op.toNat = 0) (shape : i.opcode = op.toNat ∧ i.operands = [])
      (decodes : ∀ ws, decodeOperands op ws = decodeF0 i ws)
  | one (mk : Word → Instr) (arity_eq : arity op.toNat = 1)
      (shape : ∀ a, (mk a).opcode = op.toNat ∧ (mk a).operands = [a])
      (decodes : ∀ ws, decodeOperands op ws = decodeF1 mk ws)
  | two (mk : Word → Word → Instr) (arity_eq : arity op.toNat = 2)
      (shape : ∀ a b, (mk a b).opcode = op.toNat ∧ (mk a b).operands = [a, b])
      (decodes : ∀ ws, decodeOperands op ws = decodeF2 mk ws)
  | three (mk : Word → Word → Word → Instr) (arity_eq : arity op.toNat = 3)
      (shape : ∀ a b c, (mk a b c).opcode = op.toNat ∧ (mk a b c).operands = [a, b, c])
      (decodes : ∀ ws, decodeOperands op ws = decodeF3 mk ws)

/-- The opcode map (30_encoding.md R57), row by row. -/
theorem opcodeFormat_ofNat : ∀ n, n ≤ 21 → OpcodeFormat (BitVec.ofNat 16 n)
  | 0, _ => .none .halt rfl ⟨rfl, rfl⟩ fun _ => rfl
  | 1, _ => .two .set rfl (fun _ _ => ⟨rfl, rfl⟩) fun _ => rfl
  | 2, _ => .one .push rfl (fun _ => ⟨rfl, rfl⟩) fun _ => rfl
  | 3, _ => .one .pop rfl (fun _ => ⟨rfl, rfl⟩) fun _ => rfl
  | 4, _ => .three .eq rfl (fun _ _ _ => ⟨rfl, rfl⟩) fun _ => rfl
  | 5, _ => .three .gt rfl (fun _ _ _ => ⟨rfl, rfl⟩) fun _ => rfl
  | 6, _ => .one .jmp rfl (fun _ => ⟨rfl, rfl⟩) fun _ => rfl
  | 7, _ => .two .jt rfl (fun _ _ => ⟨rfl, rfl⟩) fun _ => rfl
  | 8, _ => .two .jf rfl (fun _ _ => ⟨rfl, rfl⟩) fun _ => rfl
  | 9, _ => .three .add rfl (fun _ _ _ => ⟨rfl, rfl⟩) fun _ => rfl
  | 10, _ => .three .mult rfl (fun _ _ _ => ⟨rfl, rfl⟩) fun _ => rfl
  | 11, _ => .three .mod rfl (fun _ _ _ => ⟨rfl, rfl⟩) fun _ => rfl
  | 12, _ => .three .and rfl (fun _ _ _ => ⟨rfl, rfl⟩) fun _ => rfl
  | 13, _ => .three .or rfl (fun _ _ _ => ⟨rfl, rfl⟩) fun _ => rfl
  | 14, _ => .two .not rfl (fun _ _ => ⟨rfl, rfl⟩) fun _ => rfl
  | 15, _ => .two .rmem rfl (fun _ _ => ⟨rfl, rfl⟩) fun _ => rfl
  | 16, _ => .two .wmem rfl (fun _ _ => ⟨rfl, rfl⟩) fun _ => rfl
  | 17, _ => .one .call rfl (fun _ => ⟨rfl, rfl⟩) fun _ => rfl
  | 18, _ => .none .ret rfl ⟨rfl, rfl⟩ fun _ => rfl
  | 19, _ => .one .out rfl (fun _ => ⟨rfl, rfl⟩) fun _ => rfl
  | 20, _ => .one .input rfl (fun _ => ⟨rfl, rfl⟩) fun _ => rfl
  | 21, _ => .none .noop rfl ⟨rfl, rfl⟩ fun _ => rfl
  | n + 22, h => absurd h (by omega)

theorem opcodeFormat {op : Word} (h : op.toNat ≤ 21) : OpcodeFormat op := by
  simpa using opcodeFormat_ofNat op.toNat h

/-- A successful decode used the opcode and the operand words of the instruction it answers, and no others. -/
theorem decode_cons_ok {op : Word} {ws rest : List Word} {i : Instr} (h : decode (op :: ws) = .ok (i, rest)) :
    i.opcode = op.toNat ∧ ws = i.operands ++ rest := by
  rw [decode] at h
  rcases Nat.lt_or_ge 21 op.toNat with hop | hop
  · rw [decodeOperands_illegal ws hop] at h
    cases h
  cases opcodeFormat hop with
  | none j _ shape decodes =>
    rw [decodes, decodeF0_ok] at h
    obtain ⟨rfl, rfl⟩ := h
    simp [shape]
  | one mk _ shape decodes =>
    rw [decodes, decodeF1_ok] at h
    obtain ⟨a, rfl, rfl⟩ := h
    simp [shape]
  | two mk _ shape decodes =>
    rw [decodes, decodeF2_ok] at h
    obtain ⟨a, b, rfl, rfl⟩ := h
    simp [shape]
  | three mk _ shape decodes =>
    rw [decodes, decodeF3_ok] at h
    obtain ⟨a, b, c, rfl, rfl⟩ := h
    simp [shape]

/-- With a legal opcode word and enough words after it, decoding succeeds (30_encoding.md R59). -/
theorem decode_cons_succeeds {op : Word} {ws : List Word} (hop : op.toNat ≤ 21) (hlen : arity op.toNat ≤ ws.length) :
    ∃ i rest, decode (op :: ws) = .ok (i, rest) := by
  rw [decode]
  cases opcodeFormat hop with
  | none i _ _ decodes => exact ⟨i, ws, decodes ws⟩
  | one mk arity_eq _ decodes =>
    rw [arity_eq] at hlen
    obtain _ | ⟨a, ws⟩ := ws
    · simp at hlen
    · exact ⟨mk a, ws, decodes _⟩
  | two mk arity_eq _ decodes =>
    rw [arity_eq] at hlen
    obtain _ | ⟨a, _ | ⟨b, ws⟩⟩ := ws
    · simp at hlen
    · simp at hlen
    · exact ⟨mk a b, ws, decodes _⟩
  | three mk arity_eq _ decodes =>
    rw [arity_eq] at hlen
    obtain _ | ⟨a, _ | ⟨b, _ | ⟨c, ws⟩⟩⟩ := ws
    · simp at hlen
    · simp at hlen
    · simp at hlen
    · exact ⟨mk a b c, ws, decodes _⟩

theorem arity_of_gt {n : Nat} (h : 21 < n) : arity n = 0 := by
  obtain ⟨k, rfl⟩ := Nat.exists_eq_add_of_le' h
  rfl

/-- The decode at `pc` of an illegal opcode word: no operand word is asked for (30_encoding.md R58). -/
theorem fetchDecode_illegal {s : State} (hp : s.pc.toNat < 32768) (hop : 21 < (readWord s.mem s.pc.toNat).toNat) :
    fetchDecode s = .error ⟨.invalidOpcode, readWord s.mem s.pc.toNat⟩ := by
  rw [fetchDecode, maxWords, fetchWords_cons _ _ _ hp, decode, decodeOperands_illegal _ hop]
  rfl

/-! ### The encoding's obligations -/

/-- Settles O2: a decode that succeeds used the operand words of its instruction, and those are as many as the arity of
the opcode says. -/
theorem lengthFromOpcodeWord : Obligations.LengthFromOpcodeWord := by
  refine ⟨fun op ws rest i h => ?_, fun i => ?_, fun n => ?_⟩
  · obtain ⟨hop, rfl⟩ := decode_cons_ok h
    rw [List.length_cons, List.length_append, operands_length i, hop]
    omega
  · rw [encode, List.length_cons, operands_length i, Nat.add_comm]
  · rcases Nat.lt_or_ge 21 n with h | h
    · rw [arity_of_gt h, if_neg (by omega), if_neg (by omega), if_neg (by omega)]
    · interval_cases n <;> rfl

/-- Settles O4: with a legal opcode decoding succeeds, and what it used are the first words after the opcode word; any
other opcode word is rejected. -/
theorem operandWordsNeverIllegal : Obligations.OperandWordsNeverIllegal := by
  refine ⟨fun op ws hop hlen => ?_, fun op ws hop => decodeOperands_illegal ws hop⟩
  obtain ⟨i, rest, h⟩ := decode_cons_succeeds hop hlen
  obtain ⟨hi, rfl⟩ := decode_cons_ok h
  have harity : i.operands.length = arity op.toNat := hi ▸ operands_length i
  exact ⟨i, by rw [h, List.drop_left' harity], hi, (List.take_left' harity).symm⟩

/-- Settles O6: the decode at `pc` fails at the opcode word, whatever stands after it, and the step takes that fault. -/
theorem illegalOpcodeFaults : Obligations.IllegalOpcodeFaults := fun _ hr hp hop =>
  step_of_fault hr (fetchDecode_illegal hp hop)

/-- Settles O10: the two cases of the register resolver. -/
theorem resolveRegisterCases : Obligations.ResolveRegisterCases := fun _ =>
  ⟨fun _ h => resolveRegister_of_names h, resolveRegister_of_not⟩

end Sys2Proof

/-! SUPPORT. Data movement (41_data_movement.md): each meaning as the sequence of its checks, and what a format's
operand resolvers in front of an instruction make of an operand that does not resolve (30_encoding.md R63). -/

namespace Sys2Proof

open Sys2Proof.Machine Sys2Proof.Safety

/-! ### Resolution faults of a format -/

/-- An instruction that begins by resolving its one register operand (format F1R). -/
theorem registerFault1_of_withDest {mk : Word → Instr} {k : State → Fin 8 → Result}
    (h : ∀ dst s, exec (mk dst) s = withDest dst s (k s)) : RegisterFault1 mk := fun s dst hdst => by
  rw [h, withDest_of_not hdst]

/-- An instruction that begins by resolving its one value operand (format F1V). -/
theorem valueFault1_of_withValue {mk : Word → Instr} {k : State → Word → Result}
    (h : ∀ a s, exec (mk a) s = withValue a s (k s)) : ValueFault1 mk := fun s a ha => by
  rw [h, withValue_of_noValue ha]

/-- An instruction that begins by resolving a register and then a value operand (format F2RV). -/
theorem resolutionFaults2_of_withDest_withValue {mk : Word → Word → Instr} {k : State → Fin 8 → Word → Result}
    (h : ∀ dst b s, exec (mk dst b) s = withDest dst s fun d => withValue b s (k s d)) : ResolutionFaults2 mk := by
  refine ⟨fun s dst b hdst => ?_, fun s dst b d hd hb => ?_⟩
  · rw [h, withDest_of_not hdst]
  · rw [h, withDest_of_names hd, withValue_of_noValue hb]

/-! ### The stack's pop -/

theorem stackPop_of_cons {s : State} {v : Word} {rest : List Word} (h : s.stack = v :: rest) :
    stackPop s = .ok (v, rest) := by
  rw [stackPop, h]

theorem stackPop_of_nil {s : State} (h : s.stack = []) : stackPop s = .error ⟨.stackEmpty, 0⟩ := by
  rw [stackPop, h]

/-! ### The meanings -/

theorem exec_set (dst b : Word) (s : State) :
    exec (.set dst b) s = withDest dst s fun d => withValue b s fun v => .next ((s.advance 3).withReg d v) := rfl

theorem exec_push (a : Word) (s : State) :
    exec (.push a) s =
      withValue a s fun v => orFault (stackPush s v) s fun st => .next ((s.advance 2).withStack st) := rfl

theorem exec_pop (dst : Word) (s : State) :
    exec (.pop dst) s =
      withDest dst s fun d =>
        orFault (stackPop s) s fun p => .next (((s.advance 2).withStack p.2).withReg d p.1) := rfl

/-! ### The obligations -/

/-- Settles O12: with both operands resolved the value itself is written; the register operand is resolved first. -/
theorem setInstruction : Obligations.SetInstruction := by
  refine ⟨fun dst b => rfl, fun s dst b d v hd hb => ?_, resolutionFaults2_of_withDest_withValue exec_set⟩
  rw [exec_set, withDest_of_names hd, withValue_of_hasValue hb]
  rfl

/-- Settles O13: once the operand is resolved, the stack's check alone tells the result from STACK_OVERFLOW. -/
theorem pushInstruction : Obligations.PushInstruction := by
  refine ⟨fun a => rfl, fun s a v ha hroom => ?_, valueFault1_of_withValue exec_push, fun s a v ha hfull => ?_⟩
  · rw [exec_push, withValue_of_hasValue ha, stackPush_of_room hroom]
    rfl
  · rw [exec_push, withValue_of_hasValue ha, stackPush_of_full hfull, orFault_error]

/-- Settles O14: the register operand is resolved whatever the stack holds, and only then the stack is looked at. -/
theorem popInstruction : Obligations.PopInstruction := by
  refine ⟨fun dst => rfl, fun s dst d v rest hd hs => ?_, registerFault1_of_withDest exec_pop, fun s dst d hd hs => ?_⟩
  · rw [exec_pop, withDest_of_names hd, stackPop_of_cons hs]
    rfl
  · rw [exec_pop, withDest_of_names hd, stackPop_of_nil hs, orFault_error]

end Sys2Proof

/-! SUPPORT. The ALU (42_alu.md): what the shape shared by its three-operand instructions makes of its operands, each
meaning in that shape, and the words the operations compute in the spec's own terms. -/

namespace Sys2Proof

open Sys2Proof.Machine Sys2Proof.Safety

/-! ### The three-operand shape -/

/-- With its operands resolved, only the operation's own check is left. -/
theorem binaryOp_of_values {f : Word → Word → Except Raised Word} {s : State} {dst b c vb vc : Word} {d : Fin 8}
    (hd : NamesRegister dst d) (hb : HasValue s b vb) (hc : HasValue s c vc) :
    binaryOp f dst b c s = orFault (f vb vc) s fun v => .next ((s.advance 4).withReg d v) := by
  rw [binaryOp, withDest_of_names hd, withValue_of_hasValue hb, withValue_of_hasValue hc]

/-- The operands are resolved in position order, before the operation's own check (30_encoding.md R63). -/
theorem resolutionFaults3_of_binaryOp {mk : Word → Word → Word → Instr} {f : Word → Word → Except Raised Word}
    (h : ∀ dst b c s, exec (mk dst b c) s = binaryOp f dst b c s) : ResolutionFaults3 mk := by
  refine ⟨fun s dst b c hdst => ?_, fun s dst b c d hd hb => ?_, fun s dst b c d vb hd hb hc => ?_⟩ <;>
    rw [h, binaryOp]
  · rw [withDest_of_not hdst]
  · rw [withDest_of_names hd, withValue_of_noValue hb]
  · rw [withDest_of_names hd, withValue_of_hasValue hb, withValue_of_noValue hc]

/-- An operation whose own check always answers `g vb vc` writes that word. -/
theorem binaryResult_of_binaryOp {mk : Word → Word → Word → Instr} {f : Word → Word → Except Raised Word}
    {g : Word → Word → Word} (h : ∀ dst b c s, exec (mk dst b c) s = binaryOp f dst b c s)
    (hf : ∀ vb vc, f vb vc = .ok (g vb vc)) : BinaryResult mk g := fun s dst b c d vb vc hd hb hc => by
  rw [h, binaryOp_of_values hd hb hc, hf, orFault_ok]
  rfl

/-! ### The meanings -/

theorem exec_eq (dst b c : Word) (s : State) :
    exec (.eq dst b c) s = binaryOp (fun vb vc => .ok (truthWord (wordsEqual vb vc))) dst b c s := rfl

theorem exec_gt (dst b c : Word) (s : State) :
    exec (.gt dst b c) s = binaryOp (fun vb vc => .ok (truthWord (wordGreater vb vc))) dst b c s := rfl

theorem exec_add (dst b c : Word) (s : State) :
    exec (.add dst b c) s = binaryOp (fun vb vc => .ok (addWords vb vc)) dst b c s := rfl

theorem exec_mult (dst b c : Word) (s : State) :
    exec (.mult dst b c) s = binaryOp (fun vb vc => .ok (multWords vb vc)) dst b c s := rfl

theorem exec_not (dst b : Word) (s : State) :
    exec (.not dst b) s =
      withDest dst s fun d => withValue b s fun vb => .next ((s.advance 3).withReg d (notWord vb)) := rfl

/-! ### The words computed -/

theorem truthWord_wordsEqual (vb vc : Word) : truthWord (wordsEqual vb vc) = if vb = vc then 1 else 0 := by
  simp only [truthWord, wordsEqual, decide_eq_true_eq, BitVec.toNat_inj]

theorem truthWord_wordGreater (vb vc : Word) :
    truthWord (wordGreater vb vc) = if vc.toNat < vb.toNat then 1 else 0 := by
  simp only [truthWord, wordGreater, decide_eq_true_eq]

/-- The two forms of the complement (42_alu.md R78): the mask 0x7FFF is a reduction modulo 2 ^ 15, and complementing a
word of 16 bits is subtracting it from 65535. -/
theorem complement_masked (vb : Word) : ~~~vb &&& 0x7FFF#16 = BitVec.ofNat 16 (32767 - vb.toNat % 32768) := by
  apply BitVec.eq_of_toNat_eq
  have hmask : (~~~vb &&& 0x7FFF#16).toNat = (65535 - vb.toNat) % 32768 := by
    rw [BitVec.toNat_and, BitVec.toNat_not]
    exact Nat.and_two_pow_sub_one_eq_mod _ 15
  rw [hmask, BitVec.toNat_ofNat]
  omega

theorem notWord_eq (vb : Word) : notWord vb = BitVec.ofNat 16 (32767 - vb.toNat % 32768) := complement_masked vb

/-! ### The obligations -/

/-- Settles O15: equality of the unsigned readings is equality of the full words. -/
theorem eqInstruction : Obligations.EqInstruction :=
  ⟨fun _ _ _ => rfl, binaryResult_of_binaryOp exec_eq fun vb vc => congrArg Except.ok (truthWord_wordsEqual vb vc),
    resolutionFaults3_of_binaryOp exec_eq⟩

/-- Settles O16: the comparison is the strict order of the unsigned readings. -/
theorem gtInstruction : Obligations.GtInstruction :=
  ⟨fun _ _ _ => rfl, binaryResult_of_binaryOp exec_gt fun vb vc => congrArg Except.ok (truthWord_wordGreater vb vc),
    resolutionFaults3_of_binaryOp exec_gt⟩

/-- Settles O17: the exact sum is reduced modulo 32768, by the definition of `addWords`. -/
theorem addInstruction : Obligations.AddInstruction :=
  ⟨fun _ _ _ => rfl, binaryResult_of_binaryOp exec_add fun _ _ => rfl, resolutionFaults3_of_binaryOp exec_add⟩

/-- Settles O18: the exact product is reduced modulo 32768, by the definition of `multWords`. -/
theorem multInstruction : Obligations.MultInstruction :=
  ⟨fun _ _ _ => rfl, binaryResult_of_binaryOp exec_mult fun _ _ => rfl, resolutionFaults3_of_binaryOp exec_mult⟩

/-- Settles O22: the masked complement is written, in its second form; the register operand is resolved first. -/
theorem notInstruction : Obligations.NotInstruction := by
  refine ⟨fun dst b => rfl, fun s dst b d vb hd hb => ?_, complement_masked,
    resolutionFaults2_of_withDest_withValue exec_not⟩
  rw [exec_not, withDest_of_names hd, withValue_of_hasValue hb, notWord_eq]
  rfl

end Sys2Proof

/-! SUPPORT. Control transfer (43_control_transfer.md): the meanings of `jmp` and `call` as the sequence of their checks,
and the two cases of `ret` by what the stack holds. -/

namespace Sys2Proof

open Sys2Proof.Machine Sys2Proof.Safety

/-! ### The meanings -/

theorem exec_jmp (a : Word) (s : State) : exec (.jmp a) s = withValue a s fun t => .next (s.withPc t) := rfl

theorem exec_call (a : Word) (s : State) :
    exec (.call a) s =
      withValue a s fun t => orFault (stackPush s (s.nextPc 2)) s fun st => .next ((s.withStack st).withPc t) := rfl

theorem exec_ret_of_cons {s : State} {t : Word} {rest : List Word} (h : s.stack = t :: rest) :
    exec .ret s = .next ((s.withStack rest).withPc t) := by
  rw [exec, execRet, h]

theorem exec_ret_of_nil {s : State} (h : s.stack = []) :
    exec .ret s = .next (haltedAt s .retEmpty (s.nextPc 1)) := by
  rw [exec, execRet, h, terminate_eq]

/-! ### The obligations -/

/-- Settles O23: the word the operand stands for is written into `pc`, and no check of it stands in between. -/
theorem jmpInstruction : Obligations.JmpInstruction := by
  refine ⟨fun a => rfl, fun s a t ha => ?_, valueFault1_of_withValue exec_jmp⟩
  rw [exec_jmp, withValue_of_hasValue ha]
  rfl

/-- Settles O26: the target is resolved before the push, and only a push that succeeds is followed by the jump. -/
theorem callInstruction : Obligations.CallInstruction := by
  refine ⟨fun a => rfl, fun s a t ha hroom => ?_, valueFault1_of_withValue exec_call, fun s a t ha hfull => ?_⟩
  · rw [exec_call, withValue_of_hasValue ha, stackPush_of_room hroom]
    rfl
  · rw [exec_call, withValue_of_hasValue ha, stackPush_of_full hfull, orFault_error]

/-- Settles O27: what the stack holds tells the jump to its top word from the graceful end. -/
theorem retInstruction : Obligations.RetInstruction :=
  ⟨rfl, fun _ _ _ h => exec_ret_of_cons h, fun _ h => exec_ret_of_nil h⟩

end Sys2Proof

/-! SUPPORT. Memory access (44_memory_access.md): the meanings of `rmem` and `wmem` as the sequence of their checks, the
range check last, and the resolution faults of format F2VV. -/

namespace Sys2Proof

open Sys2Proof.Machine Sys2Proof.Safety

/-- An instruction that begins by resolving its two value operands in position order (format F2VV). -/
theorem valueFaults2_of_withValue_withValue {mk : Word → Word → Instr} {k : State → Word → Word → Result}
    (h : ∀ a b s, exec (mk a b) s = withValue a s fun va => withValue b s (k s va)) : ValueFaults2 mk := by
  refine ⟨fun s a b ha => ?_, fun s a b va ha hb => ?_⟩
  · rw [h, withValue_of_noValue ha]
  · rw [h, withValue_of_hasValue ha, withValue_of_noValue hb]

/-! ### The meanings -/

theorem exec_rmem (dst b : Word) (s : State) :
    exec (.rmem dst b) s =
      withDest dst s fun d => withValue b s fun addr =>
        orFault (memRead s addr) s fun v => .next ((s.advance 3).withReg d v) := rfl

theorem exec_wmem (a b : Word) (s : State) :
    exec (.wmem a b) s =
      withValue a s fun addr => withValue b s fun v =>
        orFault (memWrite s addr v) s fun m => .next ((s.advance 3).withMem m) := rfl

/-! ### The obligations -/

/-- Settles O28: once both operands are resolved, the range check alone tells the read from MEMORY_OUT_OF_RANGE. -/
theorem rmemInstruction : Obligations.RmemInstruction := by
  refine ⟨fun dst b => rfl, fun s dst b d addr hd hb hr => ?_, resolutionFaults2_of_withDest_withValue exec_rmem,
    fun s dst b d addr hd hb hr => ?_⟩
  · rw [exec_rmem, withDest_of_names hd, withValue_of_hasValue hb, memRead_of_lt hr]
    rfl
  · rw [exec_rmem, withDest_of_names hd, withValue_of_hasValue hb, memRead_of_ge hr, orFault_error]

/-- Settles O29: the memory after the store is one word write, and the laws of memory say what it reads back; the range
check comes after both operands are resolved. -/
theorem wmemInstruction : Obligations.WmemInstruction := by
  refine ⟨fun a b => rfl, fun s a b addr v ha hb hr => ?_, valueFaults2_of_withValue_withValue exec_wmem,
    fun s a b addr v ha hb hr => ?_⟩
  · refine ⟨writeWord s.mem addr.toNat v, ?_, readWord_writeWord_same _ _ _,
      fun _ => readWord_writeWord_other _ _ _ _⟩
    rw [exec_wmem, withValue_of_hasValue ha, withValue_of_hasValue hb, memWrite_of_lt hr]
    rfl
  · rw [exec_wmem, withValue_of_hasValue ha, withValue_of_hasValue hb, memWrite_of_ge hr, orFault_error]

end Sys2Proof

/-! SUPPORT. I/O and system (45_io_system.md): the meanings of `halt`, `out` and `noop`, and the byte that `out` emits in
the spec's own terms. -/

namespace Sys2Proof

open Sys2Proof.Machine Sys2Proof.Safety

/-- The 8 low bits are the spec's `v mod 256` (R93). -/
theorem lowByte_eq_ofNat_mod (v : Word) : lowByte v = BitVec.ofNat 8 (v.toNat % 256) := by
  apply BitVec.eq_of_toNat_eq
  simp [lowByte]

/-! ### The meanings -/

theorem exec_halt (s : State) : exec .halt s = .next (haltedAt s .haltInstr (s.nextPc 1)) := by
  rw [exec, execHalt, terminate_eq]

theorem exec_out (a : Word) (s : State) :
    exec (.out a) s = withValue a s fun v => .next (emit (lowByte v) (s.advance 2)) := rfl

theorem exec_noop (s : State) : exec .noop s = .next (s.advance 1) := rfl

/-! ### The obligations -/

/-- Settles O31: the operand is resolved first, and the byte appended is what the value leaves modulo 256. -/
theorem outInstruction : Obligations.OutInstruction := by
  refine ⟨fun a => rfl, fun s a v ha => ?_, valueFault1_of_withValue exec_out⟩
  rw [exec_out, withValue_of_hasValue ha, lowByte_eq_ofNat_mod]
  rfl

/-- Settles O30: the graceful end leaves `pc` at the next address, from every state. -/
theorem haltInstruction : Obligations.HaltInstruction := ⟨rfl, exec_halt⟩

/-- Settles O33: the meaning is the common advance alone. -/
theorem noopInstruction : Obligations.NoopInstruction := ⟨rfl, exec_noop⟩

end Sys2Proof

/-! SUPPORT. Encoding and fetching: the words of an instruction determine it and are determined by it, and what a fetch
at `pc` makes of the words that stand there (30_encoding.md R57 to R61). -/

namespace Sys2Proof

open Sys2Proof.Machine Sys2Proof.Safety

/-! ### Decoding -/

/-- The opcode map takes every instruction's own words back to it. -/
theorem decodedForm : ∀ i, Laws.DecodedForm.Statement i
  | .halt => Laws.DecodedForm.halt
  | .set dst b => Laws.DecodedForm.set dst b
  | .push a => Laws.DecodedForm.push a
  | .pop dst => Laws.DecodedForm.pop dst
  | .eq dst b c => Laws.DecodedForm.eq dst b c
  | .gt dst b c => Laws.DecodedForm.gt dst b c
  | .jmp a => Laws.DecodedForm.jmp a
  | .jt a b => Laws.DecodedForm.jt a b
  | .jf a b => Laws.DecodedForm.jf a b
  | .add dst b c => Laws.DecodedForm.add dst b c
  | .mult dst b c => Laws.DecodedForm.mult dst b c
  | .mod dst b c => Laws.DecodedForm.mod dst b c
  | .and dst b c => Laws.DecodedForm.and dst b c
  | .or dst b c => Laws.DecodedForm.or dst b c
  | .not dst b => Laws.DecodedForm.not dst b
  | .rmem dst b => Laws.DecodedForm.rmem dst b
  | .wmem a b => Laws.DecodedForm.wmem a b
  | .call a => Laws.DecodedForm.call a
  | .ret => Laws.DecodedForm.ret
  | .out a => Laws.DecodedForm.out a
  | .input dst => Laws.DecodedForm.input dst
  | .noop => Laws.DecodedForm.noop

theorem decode_encode_append (i : Instr) (rest : List Word) : decode (encode i ++ rest) = .ok (i, rest) :=
  decodedForm i rest

/-- Settles O1: the opcode map takes an instruction's words back to it, and a decode that succeeds has used the words of
its instruction and no others. -/
theorem decodeEncodeAgree : Obligations.DecodeEncodeAgree := fun ws i rest => by
  constructor
  · intro h
    cases ws with
    | nil => cases h
    | cons op ws =>
      obtain ⟨hop, rfl⟩ := decode_cons_ok h
      rw [encode, hop, BitVec.ofNat_toNat, BitVec.setWidth_eq, List.cons_append]
  · rintro rfl
    exact decode_encode_append i rest

theorem arity_le_three (n : Nat) : arity n ≤ 3 := by
  unfold arity
  split <;> decide

theorem encode_length (i : Instr) : (encode i).length = 1 + arity i.opcode := lengthFromOpcodeWord.2.1 i

theorem encode_length_le_maxWords (i : Instr) : (encode i).length ≤ maxWords := by
  have := arity_le_three i.opcode
  rw [encode_length, maxWords]
  omega

/-- A legal opcode word with too few words after it: the decode asks for the first word that is not there
(30_encoding.md R61). -/
theorem decode_cons_missing {op : Word} {ws : List Word} (hop : op.toNat ≤ 21) (hlen : ws.length < arity op.toNat) :
    decode (op :: ws) = .error (.missingWord (ws.length + 1)) := by
  rw [decode]
  cases opcodeFormat hop with
  | none _ arity_eq _ _ => omega
  | one mk arity_eq _ decodes =>
    obtain _ | ⟨a, ws⟩ := ws
    · exact decodes []
    · simp only [List.length_cons] at hlen; omega
  | two mk arity_eq _ decodes =>
    obtain _ | ⟨a, _ | ⟨b, ws⟩⟩ := ws
    · exact decodes []
    · exact decodes [a]
    · simp only [List.length_cons] at hlen; omega
  | three mk arity_eq _ decodes =>
    obtain _ | ⟨a, _ | ⟨b, _ | ⟨c, ws⟩⟩⟩ := ws
    · exact decodes []
    · exact decodes [a]
    · exact decodes [a, b]
    · simp only [List.length_cons] at hlen; omega

/-! ### Fetching -/

/-- The decode at `pc` of an instruction whose words stand there. -/
theorem fetchDecode_of_words {s : State} {i : Instr} (hp : s.pc.toNat + (encode i).length ≤ 32768)
    (hw : ∀ k (h : k < (encode i).length), readWord s.mem (s.pc.toNat + k) = (encode i)[k]) :
    fetchDecode s = .ok i := by
  obtain ⟨rest, h⟩ := fetchWords_of_words s.mem maxWords s.pc.toNat (encode i) (encode_length_le_maxWords i) hp hw
  rw [fetchDecode, h, decode_encode_append]

/-- An instruction that is decoded lies in memory as a whole. -/
theorem pc_add_length_le_of_fetchDecode {s : State} {i : Instr} (h : fetchDecode s = .ok i) :
    s.pc.toNat + (encode i).length ≤ 32768 := by
  rw [fetchDecode] at h
  split at h
  · next j rest hj =>
    obtain rfl : j = i := by simpa using h
    have hlen := congrArg List.length ((decodeEncodeAgree _ _ _).mp hj)
    rw [fetchWords_length, List.length_append, encode_length, memoryWords, maxWords] at hlen
    rw [encode_length]
    omega
  · cases h

/-- A failed decode raises one of the two faults of fetching, never NONE. -/
theorem fetchDecode_error_kind {s : State} {f : Raised} (h : fetchDecode s = .error f) : f.kind ≠ .none := by
  rw [fetchDecode] at h
  split at h
  · cases h
  · next e _ =>
    obtain rfl : decodeFault s.pc.toNat e = f := by simpa using h
    cases e with
    | invalidOpcode op => simp [decodeFault]
    | missingWord k => simp [decodeFault]

theorem fetchDecode_beyond {s : State} (hp : 32768 ≤ s.pc.toNat) : fetchDecode s = .error ⟨.fetchOutOfRange, s.pc⟩ := by
  rw [fetchDecode, fetchWords_beyond _ _ _ hp]
  simp [decode, decodeFault]

/-- The decode of a legal opcode word whose operand words do not all lie in memory: the first word that does not is
32768, wherever `pc` stands. -/
theorem fetchDecode_operand_beyond {s : State} (hp : s.pc.toNat < 32768)
    (hop : (readWord s.mem s.pc.toNat).toNat ≤ 21)
    (hlen : 32768 ≤ s.pc.toNat + arity (readWord s.mem s.pc.toNat).toNat) :
    fetchDecode s = .error ⟨.fetchOutOfRange, 32768#16⟩ := by
  have harity := arity_le_three (readWord s.mem s.pc.toNat).toNat
  have hwords : (fetchWords s.mem 3 (s.pc.toNat + 1)).length = 32767 - s.pc.toNat := by
    rw [fetchWords_length, memoryWords]
    omega
  have haddr : s.pc.toNat + (32767 - s.pc.toNat + 1) = 32768 := by omega
  rw [fetchDecode, maxWords, fetchWords_cons _ _ _ hp, decode_cons_missing hop (by omega), hwords]
  simp only [decodeFault, haddr]

/-! ### The obligations -/

/-- Settles O5: the words in memory decode to `i`, and a running block executes what it decodes. -/
theorem stepRunsTheDecodedInstruction : Obligations.StepRunsTheDecodedInstruction := fun _ _ hr hp hw =>
  step_of_decoded hr (fetchDecode_of_words hp hw)

/-- Settles O7: beyond memory the decode has no word at all, and at memory's end it lacks the word 32768. -/
theorem fetchBeyondMemoryFaults : Obligations.FetchBeyondMemoryFaults :=
  ⟨fun _ hr hp => step_of_fault hr (fetchDecode_beyond hp),
    fun _ hr hp hop hlen => step_of_fault hr (fetchDecode_operand_beyond hp hop hlen)⟩

/-- Settles O3: each list is the words of its instruction, and 22 is above the last opcode. -/
theorem knownWordsDecode : Obligations.KnownWordsDecode :=
  ⟨decode_encode_append (.set 32769#16 300#16) [], decode_encode_append (.pop 32770#16) [],
    decode_encode_append (.add 32768#16 32767#16 2#16) [0#16], decode_encode_append (.jf 0#16 9#16) [],
    decode_encode_append (.wmem 100#16 72#16) [], decode_encode_append (.input 32768#16) [],
    decode_encode_append .ret [], operandWordsNeverIllegal.2 22#16 [] (by decide)⟩

end Sys2Proof

/-! SUPPORT. Frames and whole-machine rules: what an `Effect` does to each field of the state, field by field
(10_state.md, 60_exceptions.md), and the statements that are readings of it. -/

namespace Sys2Proof.Machine

open Sys2Proof.Safety

variable {s t : State} {i : Instr}

/-! ### One field at a time -/

/-- The registers: unchanged, or written at the destination (10_state.md R20). -/
theorem Effect.registers (h : Effect s i t) :
    t.x = s.x ∨ ∃ dst d v, destination i = some dst ∧ NamesRegister dst d ∧ t.x = s.x.set d.val v := by
  cases h with
  | fault | halt | push | jmp | jtTaken | jtFalls | jfTaken | jfFalls | wmem | call | retPops | retEnds | out | noop =>
    exact .inl rfl
  | set hd | pop hd | eq hd | gt hd | add hd | mult hd | mod hd | and hd | or hd | not hd | rmem hd | inServed hd
  | inRefilled hd => exact .inr ⟨_, _, _, rfl, hd, rfl⟩

/-- Memory: unchanged, or one word written by `wmem`. -/
theorem Effect.memory (h : Effect s i t) :
    t.mem = s.mem ∨ ∃ a b addr v, i = .wmem a b ∧ HasValue s a addr ∧ addr.toNat < 32768 ∧
      t.mem = writeWord s.mem addr.toNat v := by
  cases h with
  | wmem ha _ hr => exact .inr ⟨_, _, _, _, rfl, ha, hr, rfl⟩
  | _ => exact .inl rfl

/-- The stack: unchanged, or one word more, with room for it, or the top word less (10_state.md R30). -/
theorem Effect.stack (h : Effect s i t) : t.stack = s.stack ∨
    (((∃ a, i = .push a) ∨ (∃ a, i = .call a)) ∧ StackHasRoom s ∧ ∃ v, t.stack = v :: s.stack) ∨
    (((∃ dst, i = .pop dst) ∨ i = .ret) ∧ ∃ v, s.stack = v :: t.stack) := by
  cases h with
  | push _ hr => exact .inr (.inl ⟨.inl ⟨_, rfl⟩, hr, _, rfl⟩)
  | call _ hr => exact .inr (.inl ⟨.inr ⟨_, rfl⟩, hr, _, rfl⟩)
  | pop _ hs => exact .inr (.inr ⟨.inl ⟨_, rfl⟩, _, hs⟩)
  | retPops hs => exact .inr (.inr ⟨.inr rfl, _, hs⟩)
  | _ => exact .inl rfl

/-- The parameters never change (10_state.md R17). -/
theorem Effect.cfg (h : Effect s i t) : t.cfg = s.cfg := by
  cases h <;> rfl

/-- The status record: unchanged, or that of a fault its instruction may raise, or that of a graceful end. -/
theorem Effect.status (h : Effect s i t) : t.status = s.status ∨
    (∃ k info later, k ≠ .none ∧ MayRaise s i info k ∧
      (later = s.lineIn ∨ (k = .inputExhausted ∧ s.lineIn = .exhausted :: later)) ∧
      t = faultedAt (s.withLineIn later) k info) ∨
    (i = .halt ∧ t = haltedAt s .haltInstr (s.nextPc 1)) ∨
    (i = .ret ∧ s.stack = [] ∧ t = haltedAt s .retEmpty (s.nextPc 1)) := by
  cases h with
  | fault k info later hk hi hl => exact .inr (.inl ⟨k, info, later, hk, hi, hl, rfl⟩)
  | halt => exact .inr (.inr (.inl ⟨rfl, rfl⟩))
  | retEnds hs => exact .inr (.inr (.inr ⟨rfl, hs, rfl⟩))
  | _ => exact .inl rfl

/-- An instruction that leads a running block to FAULTED has raised one fault, and done nothing else. -/
theorem Effect.faulted (h : Effect s i t) (hr : s.status.run = .running) (ht : t.status.run = .faulted) :
    ∃ k info later, k ≠ .none ∧ MayRaise s i info k ∧
      (later = s.lineIn ∨ (k = .inputExhausted ∧ s.lineIn = .exhausted :: later)) ∧
      t = faultedAt (s.withLineIn later) k info := by
  rcases h.status with h | h | ⟨_, rfl⟩ | ⟨_, _, rfl⟩
  · simp [h, hr] at ht
  · exact h
  · simp at ht
  · simp at ht

/-- An instruction that leads a running block to HALTED is `halt`, or `ret` on an empty stack. -/
theorem Effect.halted (h : Effect s i t) (hr : s.status.run = .running) (ht : t.status.run = .halted) :
    (i = .halt ∧ t = haltedAt s .haltInstr (s.nextPc 1)) ∨
    (i = .ret ∧ s.stack = [] ∧ t = haltedAt s .retEmpty (s.nextPc 1)) := by
  rcases h.status with h | ⟨_, _, _, _, _, _, rfl⟩ | h
  · simp [h, hr] at ht
  · simp at ht
  · exact h

/-! ### The invariant, part by part -/

theorem Effect.keeps_memory_wf (h : Effect s i t) (hm : Memory.wf s.mem) : Memory.wf t.mem := by
  rcases h.memory with h | ⟨_, _, _, _, _, _, hr, h⟩ <;> rw [h]
  · exact hm
  · exact writeWord_wf _ _ _ hm hr

theorem Effect.keeps_stackBounded (h : Effect s i t) (hb : StackBounded s) : StackBounded t := by
  intro n hn
  rw [h.cfg] at hn
  have hlen := hb n hn
  rcases h.stack with h | ⟨_, hroom, v, h⟩ | ⟨_, v, h⟩
  · rwa [h]
  · rw [h]
    exact hroom n hn
  · rw [h, List.length_cons] at hlen
    omega

/-- The record of a running block, written out (10_state.md R34). -/
theorem status_of_running (hr : s.status.run = .running) (hc : StatusCoherent s.status) :
    s.status = ⟨.running, .none, .none, 0, 0⟩ := by
  simpa only [StatusCoherent, hr] using hc

theorem faultedAt_coherent {k : FaultKind} {info : Word} (hr : s.status.run = .running)
    (hc : StatusCoherent s.status) (hk : k ≠ .none) : StatusCoherent (faultedAt s k info).status := by
  rw [faultedAt_status, status_of_running hr hc]
  exact ⟨rfl, hk⟩

theorem haltedAt_coherent {c : HaltCause} {p : Word} (hr : s.status.run = .running)
    (hc : StatusCoherent s.status) (hcause : c ≠ .none) : StatusCoherent (haltedAt s c p).status := by
  rw [haltedAt_status, status_of_running hr hc]
  exact ⟨hcause, rfl, rfl, rfl⟩

theorem Effect.keeps_coherent (h : Effect s i t) (hr : s.status.run = .running)
    (hc : StatusCoherent s.status) : StatusCoherent t.status := by
  rcases h.status with h | ⟨_, _, _, hk, _, _, rfl⟩ | ⟨_, rfl⟩ | ⟨_, _, rfl⟩
  · rwa [h]
  · exact faultedAt_coherent (s := s.withLineIn _) hr hc hk
  · exact haltedAt_coherent hr hc (by decide)
  · exact haltedAt_coherent hr hc (by decide)

end Sys2Proof.Machine

namespace Sys2Proof

open Sys2Proof.Machine Sys2Proof.Safety

theorem readWord_nil (a : Nat) : readWord [] a = 0 := by
  change (unlistedByte ++ unlistedByte : Word) = 0
  decide

/-! ### The obligations -/

/-- Settles O48: every effect keeps each of the four parts, and a fetch that faults changes the status record alone. -/
theorem stepKeepsInvariant : Obligations.StepKeepsInvariant := by
  rintro s t ⟨hm, hb, hc, hw⟩ h
  obtain ⟨hr, ⟨i, -, h⟩ | ⟨f, hf, rfl⟩⟩ := step_next h
  · have he := exec_next h
    exact ⟨he.keeps_memory_wf hm, he.keeps_stackBounded hb, he.keeps_coherent hr hc, he.cfg.symm ▸ hw⟩
  · exact ⟨hm, hb, faultedAt_coherent hr hc (fetchDecode_error_kind hf), hw⟩

/-- Settles O49: loading keeps the canonical form of memory and touches no other part of the invariant. -/
theorem resetMeetsInvariant : Obligations.ResetMeetsInvariant := by
  have hstack : StackBounded State.reset := fun _ _ => Nat.zero_le _
  have hcfg : State.reset.cfg.wf := by decide
  refine ⟨⟨reset_mem_wf, hstack, rfl, hcfg⟩, fun image s h => ?_⟩
  rw [loadImage] at h
  split at h
  · obtain rfl := Option.some.inj h
    exact ⟨writeWords_wf _ _ _ reset_mem_wf, hstack, rfl, hcfg⟩
  · cases h

/-- Settles O50: each field at its reset value; an empty memory reads 0 everywhere. -/
theorem resetValues : Obligations.ResetValues := by
  refine ⟨readWord_nil, fun d => ?_, rfl, rfl, rfl, rfl, rfl, rfl, rfl⟩
  simp [State.reg, State.reset]

/-- Settles O34: a register that is written is the one the destination names. -/
theorem registerFrame : Obligations.RegisterFrame := fun i s t j h hj => by
  rcases (exec_next h).registers with hx | ⟨dst, d, v, hdst, hd, hx⟩
  · rw [State.reg, hx, State.reg]
  · have hne : d.val ≠ j.val := fun e => hj dst hdst (Fin.ext e ▸ hd)
    rw [State.reg, hx, Vector.getElem_set_ne _ _ hne, State.reg]

/-- Settles O35: memory is changed by the one word write of a `wmem`, at the address its first operand stands for. -/
theorem memoryFrame : Obligations.MemoryFrame := by
  refine ⟨fun i s t h hi k => ?_, fun a b s t h => ?_⟩
  · rcases (exec_next h).memory with hm | ⟨a, b, _, _, rfl, _⟩
    · rw [hm]
    · exact absurd rfl (hi a b)
  · rcases (exec_next h).memory with hm | ⟨_, _, addr, v, ⟨⟩, ha, hr, hm⟩
    · simp [hm]
    · refine ⟨fun addr' ha' k h0 h1 => ?_, ?_⟩
      · obtain rfl := hasValue_unique ha ha'
        rw [hm, readByte_writeWord_other _ _ _ _ h0 h1]
      · rintro (hn | ⟨addr', ha', hge⟩)
        · exact absurd ha (not_hasValue_of_noValue hn)
        · obtain rfl := hasValue_unique ha ha'
          omega

/-- Settles O36: the stack's three cases, without the room a push had. -/
theorem stackFrame : Obligations.StackFrame := fun _ _ _ h =>
  (exec_next h).stack.imp_right (Or.imp_left fun ⟨hi, _, hv⟩ => ⟨hi, hv⟩)

/-- Settles O37: an `in` that succeeds is served from the queue or from one answered line; one that faults, and every
other instruction, leaves the queue. -/
theorem inputQueueFrame : Obligations.InputQueueFrame := by
  intro i s t hr h
  refine ⟨fun hi => ?_, ?_, ?_⟩
  · cases exec_next h with
    | fault k info later _ hm hl =>
      refine ⟨rfl, hl.elim id ?_⟩
      rintro ⟨rfl, _⟩
      obtain ⟨⟨dst, rfl⟩, _⟩ := hm
      exact absurd rfl (hi dst)
    | inServed | inRefilled => exact absurd rfl (hi _)
    | _ => exact ⟨rfl, rfl⟩
  · rintro dst rfl hst
    cases exec_next h with
    | fault =>
      rw [← hst] at hr
      cases hr
    | inServed _ hq => exact .inl ⟨_, hq, rfl⟩
    | inRefilled _ hq hl hb => exact .inr ⟨hq, _, _, hl, hb⟩
  · rintro dst rfl hst
    cases exec_next h with
    | fault => rfl
    | inServed | inRefilled => exact absurd rfl hst

/-- Settles O38: of the two effects of an `out`, one appends its byte and the other is the fault of its operand. -/
theorem outputTraceFrame : Obligations.OutputTraceFrame := by
  refine fun i s t h => ⟨fun hi => ?_, ?_⟩
  · cases exec_next h with
    | out => exact absurd rfl (hi _)
    | _ => rfl
  · rintro a rfl
    cases exec_next h with
    | out ha => exact .inl ⟨_, rfl, rfl⟩
    | fault k info later hk hm hl =>
      refine .inr ⟨rfl, info, ?_⟩
      cases k with
      | invalidOperand =>
        obtain rfl : later = s.lineIn := by simpa using hl
        rfl
      | _ => simp [MayRaise, destination] at hm

/-- Settles O39: the cases of the status record. -/
theorem statusFrame : Obligations.StatusFrame := by
  refine fun i s t h => ⟨(exec_next h).cfg, ?_⟩
  rcases (exec_next h).status with hs | ⟨k, info, later, hk, _, _, rfl⟩ | hhalt | hret
  · exact .inl hs
  · exact .inr (.inl ⟨k, info, hk, rfl⟩)
  · exact .inr (.inr (.inl hhalt))
  · exact .inr (.inr (.inr hret))

/-- Settles O41: a fault of the fetch changes nothing but the record, and one of execution is a single effect. -/
theorem faultsArePrecise : Obligations.FaultsArePrecise := by
  intro s t h ht
  obtain ⟨hr, ⟨i, -, h⟩ | ⟨f, hf, rfl⟩⟩ := step_next h
  · obtain ⟨k, info, later, hk, -, hl, rfl⟩ := (exec_next h).faulted hr ht
    exact ⟨k, info, later, rfl, hk, hl⟩
  · exact ⟨f.kind, f.info, s.lineIn, rfl, fetchDecode_error_kind hf, .inl rfl⟩

/-- Settles O42: every fault among the effects carries its row of the fault table. -/
theorem faultsOnlyAsListed : Obligations.FaultsOnlyAsListed := by
  intro i s t hr h ht
  obtain ⟨k, info, later, -, hm, -, rfl⟩ := (exec_next h).faulted hr ht
  exact hm

/-- Settles O43: a fetch that faults does not end HALTED, and only two effects do. -/
theorem haltedOnlyByHaltOrEmptyRet : Obligations.HaltedOnlyByHaltOrEmptyRet := by
  intro s t h ht
  obtain ⟨hr, ⟨i, hi, h⟩ | ⟨f, -, rfl⟩⟩ := step_next h
  · rcases (exec_next h).halted hr ht with ⟨rfl, rfl⟩ | ⟨rfl, hs, rfl⟩
    · exact .inl ⟨hi, rfl⟩
    · exact .inr ⟨hi, hs, rfl⟩
  · simp [EndedGracefully] at ht

end Sys2Proof

/-! SUPPORT. Operands and instructions: the value resolver and well-formed operands (30_encoding.md R54, R65), the ALU
instructions whose results the spec's decisions settle (42_alu.md), the conditional branches (43_control_transfer.md) and
`in` (45_io_system.md). -/

namespace Sys2Proof

open Sys2Proof.Machine Sys2Proof.Safety

/-! ### Well-formed operands -/

theorem not_notRegister_of_isRegisterWord {w : Word} (h : isRegisterWord w = true) : ¬ NotRegister w := by
  simp only [isRegisterWord, Bool.and_eq_true, decide_eq_true_eq] at h
  unfold NotRegister
  omega

theorem not_noValue_of_isValueWord {s : State} {w : Word} (h : isValueWord w = true) : ¬ NoValue s w := by
  simp only [isValueWord, decide_eq_true_eq] at h
  unfold NoValue
  omega

/-- An instruction is well-formed when its operands have the classes of their positions (30_encoding.md R52). -/
theorem wellFormed_iff (i : Instr) : i.wellFormed = true ↔
    (∀ dst, destination i = some dst → isRegisterWord dst = true) ∧
    (∀ w ∈ valueOperands i, isValueWord w = true) := by
  cases i <;> simp [Instr.wellFormed, destination, valueOperands, and_assoc]

/-! ### ALU -/

theorem exec_mod (dst b c : Word) (s : State) : exec (.mod dst b c) s = binaryOp modWords dst b c s := rfl

theorem exec_and (dst b c : Word) (s : State) :
    exec (.and dst b c) s = binaryOp (fun vb vc => .ok (andWords vb vc)) dst b c s := rfl

theorem exec_or (dst b c : Word) (s : State) :
    exec (.or dst b c) s = binaryOp (fun vb vc => .ok (orWords vb vc)) dst b c s := rfl

theorem modWords_zero (vb : Word) : modWords vb 0 = .error ⟨.divideByZero, 0⟩ := rfl

theorem toNat_reduce_lt (n : Nat) : (reduce n).toNat < 32768 := by
  rw [reduce, BitVec.toNat_ofNat]
  omega

theorem toNat_modWords_lt {vb vc v : Word} (h : modWords vb vc = .ok v) : v.toNat < 32768 := by
  rw [modWords] at h
  split at h
  · cases h
  · obtain rfl := Except.ok.inj h
    exact toNat_reduce_lt _

theorem toNat_notWord_lt (vb : Word) : (notWord vb).toNat < 32768 := by
  rw [notWord_eq, BitVec.toNat_ofNat]
  omega

theorem truthWord_eq_zero_or_one (b : Bool) : truthWord b = 0 ∨ truthWord b = 1 := by
  cases b
  · exact .inl rfl
  · exact .inr rfl

/-- What holds of every word an operation can answer holds of the destination, when no fault was taken. -/
theorem binaryOp_written {P : Word → Prop} {f : Word → Word → Except Raised Word} {s t : State} {dst b c : Word}
    {d : Fin 8} (hf : ∀ vb vc v, f vb vc = .ok v → P v) (h : binaryOp f dst b c s = .next t)
    (ht : t.status.run = .running) (hd : NamesRegister dst d) : P (t.reg d) := by
  rw [binaryOp, withDest_of_names hd] at h
  obtain ⟨vb, -, h⟩ | ⟨_, -, rfl⟩ := orFault_next h
  · obtain ⟨vc, -, h⟩ | ⟨_, -, rfl⟩ := orFault_next h
    · obtain ⟨v, hv, h⟩ | ⟨_, -, rfl⟩ := orFault_next h
      · obtain rfl := next_inj h
        rw [withReg_reg_same]
        exact hf vb vc v hv
      · cases ht
    · cases ht
  · cases ht

/-- The same for an operation without a check of its own. -/
theorem binaryOp_ok_written {P : Word → Prop} {g : Word → Word → Word} {s t : State} {dst b c : Word} {d : Fin 8}
    (hg : ∀ vb vc, P (g vb vc)) (h : binaryOp (fun vb vc => .ok (g vb vc)) dst b c s = .next t)
    (ht : t.status.run = .running) (hd : NamesRegister dst d) : P (t.reg d) :=
  binaryOp_written (fun vb vc _ hv => Except.ok.inj hv ▸ hg vb vc) h ht hd

theorem exec_not_written {s t : State} {dst b : Word} {d : Fin 8} (h : exec (.not dst b) s = .next t)
    (ht : t.status.run = .running) (hd : NamesRegister dst d) : ∃ vb, t.reg d = notWord vb := by
  rw [exec_not, withDest_of_names hd] at h
  obtain ⟨vb, -, h⟩ | ⟨_, -, rfl⟩ := orFault_next h
  · obtain rfl := next_inj h
    exact ⟨vb, withReg_reg_same _ _ _⟩
  · cases ht

/-! ### Conditional branches -/

theorem exec_jt (a b : Word) (s : State) :
    exec (.jt a b) s = withValue a s fun v => withValue b s fun t =>
      .next (if conditionHolds v then s.withPc t else s.advance 3) := rfl

theorem exec_jf (a b : Word) (s : State) :
    exec (.jf a b) s = withValue a s fun v => withValue b s fun t =>
      .next (if !conditionHolds v then s.withPc t else s.advance 3) := rfl

theorem conditionHolds_zero : conditionHolds 0 = false := rfl

/-! ### The obligations -/

/-- Settles O9: each case is one of the resolver's two answers, by the class of the word. -/
theorem resolveValueCases : Obligations.ResolveValueCases := fun _ _ =>
  ⟨fun h => resolveValue_of_hasValue (.inl ⟨h, rfl⟩), fun d h => resolveValue_of_hasValue (.inr (.inl ⟨d, h, rfl⟩)),
    fun h hm => resolveValue_of_hasValue (.inr (.inr ⟨h, hm, rfl⟩)), fun h hm => resolveValue_of_noValue ⟨h, hm⟩⟩

/-- Settles O11: the rows of the fault table for the two resolution faults ask for an operand of the wrong class. -/
theorem wellFormedOperandsResolve : Obligations.WellFormedOperandsResolve := by
  intro i s t hi hr h ht
  have hlisted := faultsOnlyAsListed i s t hr h ht
  obtain ⟨hdest, hvalues⟩ := (wellFormed_iff i).mp hi
  refine ⟨fun hk => ?_, fun hk => ?_⟩ <;> rw [hk] at hlisted <;> obtain ⟨hop, hbad⟩ := hlisted
  · exact not_notRegister_of_isRegisterWord (hdest _ hop) hbad
  · exact not_noValue_of_isValueWord (hvalues _ hop) hbad

/-- Settles O19: the operation's own check comes after the resolutions and tells the result from DIVIDE_BY_ZERO. -/
theorem modInstruction : Obligations.ModInstruction := by
  refine ⟨fun dst b c => rfl, fun s dst b c d vb vc hd hb hc hz => ?_, resolutionFaults3_of_binaryOp exec_mod,
    fun s dst b c d vb hd hb hc => ?_⟩
  · rw [exec_mod, binaryOp_of_values hd hb hc, modWords_of_ne hz]
    rfl
  · rw [exec_mod, binaryOp_of_values hd hb hc, modWords_zero, orFault_error]

/-- Settles O20: the conjunction is reduced modulo 32768, by the definition of `andWords`. -/
theorem andInstruction : Obligations.AndInstruction :=
  ⟨fun _ _ _ => rfl, binaryResult_of_binaryOp exec_and fun _ _ => rfl, resolutionFaults3_of_binaryOp exec_and⟩

/-- Settles O21: the disjunction is reduced modulo 32768, by the definition of `orWords`. -/
theorem orInstruction : Obligations.OrInstruction :=
  ⟨fun _ _ _ => rfl, binaryResult_of_binaryOp exec_or fun _ _ => rfl, resolutionFaults3_of_binaryOp exec_or⟩

/-- Settles O24: both operands are resolved, and then the condition alone chooses. -/
theorem jtInstruction : Obligations.JtInstruction := by
  refine ⟨fun a b => rfl, fun s a b v t ha hb hv => ?_, fun s a b t ha hb => ?_,
    valueFaults2_of_withValue_withValue exec_jt⟩
  · rw [exec_jt, withValue_of_hasValue ha, withValue_of_hasValue hb, conditionHolds_of_ne hv]
    rfl
  · rw [exec_jt, withValue_of_hasValue ha, withValue_of_hasValue hb, conditionHolds_zero]
    rfl

/-- Settles O25: both operands are resolved, and then the condition's negation alone chooses. -/
theorem jfInstruction : Obligations.JfInstruction := by
  refine ⟨fun a b => rfl, fun s a b t ha hb => ?_, fun s a b v t ha hb hv => ?_,
    valueFaults2_of_withValue_withValue exec_jf⟩
  · rw [exec_jf, withValue_of_hasValue ha, withValue_of_hasValue hb, conditionHolds_zero]
    rfl
  · rw [exec_jf, withValue_of_hasValue ha, withValue_of_hasValue hb, conditionHolds_of_ne hv]
    rfl

/-- Settles O32: the queue's head, or else the host's first answer, decides; the register operand is resolved before
either is looked at. -/
theorem inInstruction : Obligations.InInstruction := by
  refine ⟨fun dst => rfl, fun s dst d b rest hd hq => ?_, fun s dst d bs later b rest hd hq hl hlen hb => ?_,
    registerFault1_of_withDest fun _ _ => rfl, fun s dst d later hd hq hl => ?_,
    fun s dst d hd hq hl => exec_input_waits hd hq hl, fun s dst d bs later n hd hq hl hn hlong => ?_⟩
  · rw [exec_input_served hd hq]
    rfl
  · rw [exec_input_answered hd hq hl, if_pos (lineAccepted_iff.mpr hlen), newline, hb]
    rfl
  · rw [exec_input_exhausted hd hq hl]
    rfl
  · rw [exec_input_answered hd hq hl, if_neg fun hacc => Nat.not_le.mpr hlong (lineAccepted_iff.mp hacc n hn)]

/-- Settles O44: the word an ALU instruction writes is a reduction, a masked complement, or the word of a comparison. -/
theorem aluResultsInRange : Obligations.AluResultsInRange := by
  intro s t dst b c d i _ h ht hd
  refine ⟨?_, ?_⟩
  · rintro (rfl | rfl | rfl | rfl | rfl | rfl)
    · exact binaryOp_ok_written (P := (·.toNat < 32768)) (fun _ _ => toNat_reduce_lt _) h ht hd
    · exact binaryOp_ok_written (P := (·.toNat < 32768)) (fun _ _ => toNat_reduce_lt _) h ht hd
    · exact binaryOp_written (P := (·.toNat < 32768)) (fun _ _ _ => toNat_modWords_lt) h ht hd
    · exact binaryOp_ok_written (P := (·.toNat < 32768)) (fun _ _ => toNat_reduce_lt _) h ht hd
    · exact binaryOp_ok_written (P := (·.toNat < 32768)) (fun _ _ => toNat_reduce_lt _) h ht hd
    · obtain ⟨vb, hv⟩ := exec_not_written h ht hd
      exact hv ▸ toNat_notWord_lt vb
  · rintro (rfl | rfl)
    · exact binaryOp_ok_written (P := fun v => v = 0 ∨ v = 1) (fun _ _ => truthWord_eq_zero_or_one _) h ht hd
    · exact binaryOp_ok_written (P := fun v => v = 0 ∨ v = 1) (fun _ _ => truthWord_eq_zero_or_one _) h ht hd

end Sys2Proof

/-! SUPPORT. The step and short runs: ended and endless runs (60_exceptions.md R102, R103), the next `pc`
(10_state.md §3), progress and waiting (45_io_system.md R94). -/

namespace Sys2Proof

open Sys2Proof.Machine Sys2Proof.Safety

/-! ### Runs -/

theorem step_of_ended {s : State} (h : Ended s) : step s = .fault .runEnded := by
  rcases h with h | h <;> rw [step, h]

/-- A state whose step leads nowhere else reaches itself alone. -/
theorem eq_of_reaches {s t : State} (hs : ∀ u, step s = .next u → u = s) (h : Reaches s t) : t = s := by
  induction h with
  | here => rfl
  | later hstep _ ih =>
    obtain rfl := hs _ hstep
    exact ih hs

/-! ### The program counter -/

theorem toNat_nextPc {s : State} {n : Nat} (h : s.pc.toNat + n ≤ 32768) : (s.nextPc n).toNat = s.pc.toNat + n := by
  rw [State.nextPc, BitVec.toNat_add, BitVec.toNat_ofNat]
  omega

/-- Where an effect that is no fault leaves `pc`: after the instruction's words, or at a control transfer's target. -/
theorem Machine.Effect.pc {s t : State} {i : Instr} (h : Effect s i t) (ht : t.status.run ≠ .faulted) :
    t.pc = s.nextPc (encode i).length ∨
    (∃ a, i = .jmp a ∧ HasValue s a t.pc) ∨
    (∃ a b v, i = .jt a b ∧ HasValue s a v ∧ v ≠ 0 ∧ HasValue s b t.pc) ∨
    (∃ a b, i = .jf a b ∧ HasValue s a 0 ∧ HasValue s b t.pc) ∨
    (∃ a, i = .call a ∧ HasValue s a t.pc) ∨
    (i = .ret ∧ s.stack = t.pc :: t.stack) := by
  cases h with
  | fault => exact absurd rfl ht
  | jmp ha => exact .inr (.inl ⟨_, rfl, ha⟩)
  | jtTaken ha hb hv => exact .inr (.inr (.inl ⟨_, _, _, rfl, ha, hv, hb⟩))
  | jfTaken ha hb => exact .inr (.inr (.inr (.inl ⟨_, _, rfl, ha, hb⟩)))
  | call ha => exact .inr (.inr (.inr (.inr (.inl ⟨_, rfl, ha⟩))))
  | retPops hs => exact .inr (.inr (.inr (.inr (.inr ⟨rfl, hs⟩))))
  | _ => exact .inl rfl

/-! ### Progress -/

/-- A check goes on to a next state when what follows it does: its fault is a next state too. -/
theorem orFault_answers {α : Type} {r : Except Raised α} {s : State} {k : α → Result} (h : ∀ v, ∃ t, k v = .next t) :
    ∃ t, orFault r s k = .next t := by
  cases r with
  | ok v => exact h v
  | error f => exact ⟨_, rfl⟩

theorem withDest_answers {dst : Word} {s : State} {k : Fin 8 → Result} (h : ∀ d, ∃ t, k d = .next t) :
    ∃ t, withDest dst s k = .next t := orFault_answers h

theorem withValue_answers {w : Word} {s : State} {k : Word → Result} (h : ∀ v, ∃ t, k v = .next t) :
    ∃ t, withValue w s k = .next t := orFault_answers h

theorem binaryOp_answers (f : Word → Word → Except Raised Word) (dst b c : Word) (s : State) :
    ∃ t, binaryOp f dst b c s = .next t :=
  withDest_answers fun _ => withValue_answers fun _ => withValue_answers fun _ => orFault_answers fun _ => ⟨_, rfl⟩

/-- Every instruction but `in` goes on to a next state, from every state. -/
theorem exec_answers {i : Instr} (s : State) (hi : ∀ dst, i ≠ .input dst) : ∃ t, exec i s = .next t := by
  cases i with
  | halt | noop => exact ⟨_, rfl⟩
  | set dst b => exact withDest_answers fun _ => withValue_answers fun _ => ⟨_, rfl⟩
  | push a => exact withValue_answers fun _ => orFault_answers fun _ => ⟨_, rfl⟩
  | pop dst => exact withDest_answers fun _ => orFault_answers fun _ => ⟨_, rfl⟩
  | eq dst b c | gt dst b c | add dst b c | mult dst b c | mod dst b c | and dst b c | or dst b c =>
    exact binaryOp_answers _ dst b c s
  | not dst b => exact withDest_answers fun _ => withValue_answers fun _ => ⟨_, rfl⟩
  | jmp a => exact withValue_answers fun _ => ⟨_, rfl⟩
  | jt a b => exact withValue_answers fun _ => withValue_answers fun _ => ⟨_, rfl⟩
  | jf a b => exact withValue_answers fun _ => withValue_answers fun _ => ⟨_, rfl⟩
  | call a => exact withValue_answers fun _ => orFault_answers fun _ => ⟨_, rfl⟩
  | ret =>
    cases hs : s.stack with
    | nil => exact ⟨_, exec_ret_of_nil hs⟩
    | cons v rest => exact ⟨_, exec_ret_of_cons hs⟩
  | rmem dst b => exact withDest_answers fun _ => withValue_answers fun _ => orFault_answers fun _ => ⟨_, rfl⟩
  | wmem a b => exact withValue_answers fun _ => withValue_answers fun _ => orFault_answers fun _ => ⟨_, rfl⟩
  | out a => exact withValue_answers fun _ => ⟨_, rfl⟩
  | input dst => exact absurd rfl (hi dst)

theorem dequeueInto_answers (d : Fin 8) (q : List Byte) (s : State) : ∃ t, dequeueInto d q s = .next t := by
  cases q with
  | nil => exact ⟨_, rfl⟩
  | cons b q => exact ⟨_, rfl⟩

/-- An `in` goes on to a next state, or waits for an answer, or has been answered with a line that is too long. -/
theorem exec_input_answers (dst : Word) (s : State) :
    (∃ t, exec (.input dst) s = .next t) ∨
    (exec (.input dst) s = .fault .waitInput ∧ (∃ d, NamesRegister dst d) ∧ s.inq = [] ∧ s.lineIn = []) ∨
    (exec (.input dst) s = .refused .lineTooLong ∧ s.inq = [] ∧
      ∃ n bs later, s.cfg.maxLineBytes = some n ∧ s.lineIn = .line bs :: later ∧ n < bs.length) := by
  rcases names_or_not dst with ⟨d, hd⟩ | hn
  swap
  · exact .inl ⟨_, withDest_of_not hn⟩
  cases hq : s.inq with
  | cons b q => exact .inl (exec_input_served hd hq ▸ dequeueInto_answers _ _ _)
  | nil =>
    cases hl : s.lineIn with
    | nil => exact .inr (.inl ⟨exec_input_waits hd hq hl, ⟨d, hd⟩, rfl, rfl⟩)
    | cons answer later =>
      cases answer with
      | exhausted => exact .inl (exec_input_exhausted hd hq hl ▸ dequeueInto_answers _ _ _)
      | line bs =>
        rw [exec_input_answered hd hq hl]
        by_cases hacc : lineAccepted s bs = true
        · rw [if_pos hacc]
          exact .inl (dequeueInto_answers _ _ _)
        · obtain ⟨n, hn, hlong⟩ : ∃ n, s.cfg.maxLineBytes = some n ∧ n < bs.length := by
            simpa [lineAccepted_iff] using hacc
          rw [if_neg hacc]
          exact .inr (.inr ⟨rfl, rfl, n, bs, later, hn, rfl, hlong⟩)

/-- Settles O45: the trichotomy of `in`; every other instruction, and every fault of the fetch, is a next state. -/
theorem runningBlockSteps : Obligations.RunningBlockSteps := by
  intro s hr
  cases hf : fetchDecode s with
  | error f => exact .inl ⟨_, step_of_fault hr hf⟩
  | ok i =>
    rw [step_of_decoded hr hf]
    by_cases hi : ∃ dst, i = .input dst
    · obtain ⟨dst, rfl⟩ := hi
      exact (exec_input_answers dst s).imp_right
        (Or.imp_left fun ⟨h, ⟨d, hd⟩, hq, hl⟩ => ⟨⟨hr, ⟨dst, d, hf, hd⟩, hq, hl⟩, h⟩)
    · exact .inl (exec_answers s (not_exists.mp hi))

/-! ### Waiting -/

theorem toBool_resolveRegister (w : Word) : (resolveRegister w).toBool = true ↔ ∃ d, NamesRegister w d := by
  rcases names_or_not w with ⟨d, hd⟩ | hn
  · exact ⟨fun _ => ⟨d, hd⟩, fun _ => by rw [resolveRegister_of_names hd]; rfl⟩
  · rw [resolveRegister_of_not hn]
    exact ⟨nofun, fun ⟨d, hd⟩ => absurd hd (not_names_of_notRegister hn)⟩

/-- The computed condition is the spec's (10_state.md R28, 45_io_system.md R94). -/
theorem waitInput_iff (s : State) : s.waitInput = true ↔ Waiting s := by
  rw [State.waitInput]
  split
  · next dst hf =>
    simp only [Bool.and_eq_true, decide_eq_true_eq, toBool_resolveRegister, List.isEmpty_iff]
    constructor
    · rintro ⟨⟨⟨hr, d, hd⟩, hq⟩, hl⟩
      exact ⟨hr, ⟨dst, d, hf, hd⟩, hq, hl⟩
    · rintro ⟨hr, ⟨dst', d, hf', hd⟩, hq, hl⟩
      obtain rfl : dst = dst' := by simpa [hf] using hf'
      exact ⟨⟨⟨hr, d, hd⟩, hq⟩, hl⟩
  · next hno =>
    exact ⟨nofun, fun ⟨_, ⟨dst, _, hf, _⟩, _⟩ => absurd hf (hno dst)⟩

theorem step_of_waiting {s : State} (h : Waiting s) : step s = .fault .waitInput := by
  obtain ⟨hr, ⟨dst, d, hf, hd⟩, hq, hl⟩ := h
  rw [step_of_decoded hr hf, exec_input_waits hd hq hl]

theorem not_ended_of_running {s : State} (hr : s.status.run = .running) : ¬ Ended s := by
  rintro (h | h) <;> rw [hr] at h <;> cases h

theorem running_of_step_ne_runEnded {s : State} (h : step s ≠ .fault .runEnded) : s.status.run = .running := by
  cases hr : s.status.run with
  | running => rfl
  | halted => exact absurd (step_of_ended (.inl hr)) h
  | faulted => exact absurd (step_of_ended (.inr hr)) h

/-- The step of a block that was waiting when its host answered is its `in`, with that answer alone. -/
theorem step_answered {s : State} (h : Waiting s) (answer : LineAnswer) :
    ∃ dst d, NamesRegister dst d ∧ (s.answerLine answer).inq = [] ∧ (s.answerLine answer).lineIn = [answer] ∧
      step (s.answerLine answer) = exec (.input dst) (s.answerLine answer) := by
  obtain ⟨hr, ⟨dst, d, hf, hd⟩, hq, hl⟩ := h
  have hfetch : fetchDecode (s.answerLine answer) = .ok (.input dst) := hf
  exact ⟨dst, d, hd, hq, by rw [answerLine_lineIn, hl, List.nil_append], step_of_decoded hr hfetch⟩

/-- Settles O46: waiting is what `in` stops at, and an answer is all that was wanting. -/
theorem waitingEndsWithAnswer : Obligations.WaitingEndsWithAnswer := by
  refine fun s => ⟨waitInput_iff s, ⟨fun h => ?_, step_of_waiting⟩, fun h => not_ended_of_running h.1,
    fun bs h hlen => ?_, fun h => ?_⟩
  · have hr : s.status.run = .running := running_of_step_ne_runEnded fun h' => by rw [h] at h'; cases h'
    obtain ⟨t, ht⟩ | ⟨hw, -⟩ | ⟨ht, -⟩ := runningBlockSteps s hr
    · rw [h] at ht
      cases ht
    · exact hw
    · rw [h] at ht
      cases ht
  · obtain ⟨dst, d, hd, hq, hl, hstep⟩ := step_answered h (.line bs)
    have hacc : lineAccepted (s.answerLine (.line bs)) bs = true := lineAccepted_iff.mpr hlen
    rw [hstep, exec_input_answered hd hq hl, if_pos hacc, newline]
    cases bs with
    | nil => exact ⟨_, rfl, rfl, rfl⟩
    | cons b bs => exact ⟨_, rfl, rfl, rfl⟩
  · obtain ⟨dst, d, hd, hq, hl, hstep⟩ := step_answered h .exhausted
    rw [hstep, exec_input_exhausted hd hq hl]
    exact ⟨_, rfl, rfl⟩

/-! ### The ends and the next address -/

/-- Settles O8: no step, so nothing but the state itself is reached. -/
theorem endedRunsTakeNoStep : Obligations.EndedRunsTakeNoStep := by
  refine fun s h => ⟨step_of_ended h, fun t => eq_of_reaches fun u hu => ?_⟩
  rw [step_of_ended h] at hu
  cases hu

/-- Settles O40: a decoded instruction lies in memory as a whole, so the address after it does not wrap. -/
theorem pcAdvancesOrTransfers : Obligations.PcAdvancesOrTransfers := by
  intro s t i hr hf h ht
  have hlen := pc_add_length_le_of_fetchDecode hf
  rw [step_of_decoded hr hf] at h
  refine ((exec_next h).pc ht).imp_left fun hpc => ?_
  rw [hpc, toNat_nextPc hlen]
  exact ⟨rfl, hlen⟩

/-- Settles O55: the jump writes the `pc` that stands there already, so its step is a loop of length one. -/
theorem jumpToItselfRunsForever : Obligations.JumpToItselfRunsForever := by
  intro s a hr hf ha
  have hstep : step s = .next s := by rw [step_of_decoded hr hf, jmpInstruction.2.1 s a s.pc ha]
  have hreach : ∀ t, Reaches s t → t = s := fun t => eq_of_reaches fun u hu => (next_inj (hstep ▸ hu)).symm
  refine ⟨hstep, hreach, fun t ht => ?_, not_ended_of_running hr⟩
  rw [hreach t ht, hr]
  decide

end Sys2Proof

/-! SUPPORT. Two runs, loading, and two instructions in a row: the records a program does not see (10_state.md §5, §8),
the image in memory (70_reset_and_hazards.md §1), and what a later instruction finds of an earlier one (20_memory.md §4,
43_control_transfer.md §3). -/

namespace Sys2Proof

open Sys2Proof.Machine Sys2Proof.Safety

/-! ### Records -/

/-- `s` with another status record and another output trace. -/
def Machine.State.withRecords (s : State) (st : Status) (o : List Byte) : State := (s.withStatus st).withOut o

@[simp] theorem withRecords_inq (s : State) (st : Status) (o : List Byte) : (s.withRecords st o).inq = s.inq := rfl
@[simp] theorem withRecords_lineIn (s : State) (st : Status) (o : List Byte) :
    (s.withRecords st o).lineIn = s.lineIn := rfl
theorem lineAccepted_withRecords (s : State) (st : Status) (o bs : List Byte) :
    lineAccepted (s.withRecords st o) bs = lineAccepted s bs := rfl

theorem withRecords_of_same {s s' : State} (h : SameButRecords s s') : s' = s.withRecords s'.status s'.out := by
  obtain ⟨hmem, hx, hpc, hstack, hinq, hline, hcfg⟩ := h
  simp only [State.withRecords, State.withStatus, State.withOut, hmem, hx, hpc, hstack, hinq, hline, hcfg]

theorem sameButRecords_withRecords (s : State) (st : Status) (o : List Byte) : SameButRecords s (s.withRecords st o) :=
  ⟨rfl, rfl, rfl, rfl, rfl, rfl, rfl⟩

/-- The answers of one instruction in two states that agree but for their records: the same kind of outcome, next states
that agree in the same way, and the same bytes `e` emitted. -/
inductive AgreeBut (s s' : State) : Result → Result → Prop where
  | next {t t' : State} (e : List Byte) (same : SameButRecords t t') (out : t.out = s.out ++ e)
      (out' : t'.out = s'.out ++ e) : AgreeBut s s' (.next t) (.next t')
  | fault (f : Fault) : AgreeBut s s' (.fault f) (.fault f)
  | refused (r : Refusal) : AgreeBut s s' (.refused r) (.refused r)

section
variable {s : State} {st : Status} {o : List Byte}

/-- A next state with nothing emitted. -/
theorem AgreeBut.quiet {t : State} {st' : Status} (out : t.out = s.out) :
    AgreeBut s (s.withRecords st o) (.next t) (.next (t.withRecords st' o)) :=
  .next [] (sameButRecords_withRecords t st' o) (by rw [out, List.append_nil]) (List.append_nil o).symm

/-- A check reads no record, and the fault it may raise emits nothing. -/
theorem agreeBut_orFault {α : Type} {r : Except Raised α} {k k' : α → Result}
    (hk : ∀ v, AgreeBut s (s.withRecords st o) (k v) (k' v)) :
    AgreeBut s (s.withRecords st o) (orFault r s k) (orFault r (s.withRecords st o) k') := by
  cases r with
  | ok v => exact hk v
  | error f => exact .quiet (t := takeFault f s) rfl

theorem agreeBut_withDest {dst : Word} {k k' : Fin 8 → Result}
    (hk : ∀ d, AgreeBut s (s.withRecords st o) (k d) (k' d)) :
    AgreeBut s (s.withRecords st o) (withDest dst s k) (withDest dst (s.withRecords st o) k') :=
  agreeBut_orFault hk

theorem agreeBut_withValue {w : Word} {k k' : Word → Result}
    (hk : ∀ v, AgreeBut s (s.withRecords st o) (k v) (k' v)) :
    AgreeBut s (s.withRecords st o) (withValue w s k) (withValue w (s.withRecords st o) k') :=
  agreeBut_orFault (r := resolveValue s w) hk

theorem agreeBut_binaryOp (f : Word → Word → Except Raised Word) (dst b c : Word) :
    AgreeBut s (s.withRecords st o) (binaryOp f dst b c s) (binaryOp f dst b c (s.withRecords st o)) :=
  agreeBut_withDest fun _ => agreeBut_withValue fun _ => agreeBut_withValue fun _ => agreeBut_orFault fun _ => .quiet rfl

theorem agreeBut_branchIf (taken : Word → Bool) (a b : Word) :
    AgreeBut s (s.withRecords st o) (branchIf taken a b s) (branchIf taken a b (s.withRecords st o)) := by
  refine agreeBut_withValue fun v => agreeBut_withValue fun t => ?_
  cases taken v
  · exact .quiet rfl
  · exact .quiet rfl

/-- The byte dequeued is the same, whatever the host's answers that are left. -/
theorem agreeBut_dequeueInto (d : Fin 8) (q : List Byte) (later : List LineAnswer) :
    AgreeBut s (s.withRecords st o) (dequeueInto d q (s.withLineIn later))
      (dequeueInto d q ((s.withRecords st o).withLineIn later)) := by
  cases q with
  | nil => exact .quiet (t := takeFault _ (s.withLineIn later)) rfl
  | cons b q => exact .quiet rfl

/-- Every instruction, run in `s` and in `s` with other records. -/
theorem agreeBut_exec (i : Instr) : AgreeBut s (s.withRecords st o) (exec i s) (exec i (s.withRecords st o)) := by
  cases i with
  | halt => exact .quiet (t := terminate _ _ s) rfl
  | set dst b => exact agreeBut_withDest fun _ => agreeBut_withValue fun _ => .quiet rfl
  | push a => exact agreeBut_withValue fun v => agreeBut_orFault (r := stackPush s v) fun _ => .quiet rfl
  | pop dst => exact agreeBut_withDest fun _ => agreeBut_orFault (r := stackPop s) fun _ => .quiet rfl
  | eq dst b c | gt dst b c | add dst b c | mult dst b c | mod dst b c | and dst b c | or dst b c =>
    exact agreeBut_binaryOp _ dst b c
  | not dst b => exact agreeBut_withDest fun _ => agreeBut_withValue fun _ => .quiet rfl
  | jmp a => exact agreeBut_withValue fun _ => .quiet rfl
  | jt a b | jf a b => exact agreeBut_branchIf _ a b
  | call a => exact agreeBut_withValue fun _ => agreeBut_orFault (r := stackPush s _) fun _ => .quiet rfl
  | ret =>
    cases hs : s.stack with
    | nil =>
      have hs' : (s.withRecords st o).stack = [] := hs
      rw [exec_ret_of_nil hs, exec_ret_of_nil hs']
      exact .quiet (t := haltedAt s _ _) rfl
    | cons v rest =>
      have hs' : (s.withRecords st o).stack = v :: rest := hs
      rw [exec_ret_of_cons hs, exec_ret_of_cons hs']
      exact .quiet rfl
  | rmem dst b =>
    exact agreeBut_withDest fun _ => agreeBut_withValue fun addr => agreeBut_orFault (r := memRead s addr) fun _ =>
      .quiet rfl
  | wmem a b =>
    exact agreeBut_withValue fun addr => agreeBut_withValue fun v => agreeBut_orFault (r := memWrite s addr v) fun _ =>
      .quiet rfl
  | out a => exact agreeBut_withValue fun v => .next [lowByte v] (sameButRecords_withRecords _ st _) rfl rfl
  | input dst =>
    refine agreeBut_withDest fun d => ?_
    simp only [withRecords_inq, withRecords_lineIn]
    split
    · exact agreeBut_dequeueInto d _ s.lineIn
    · exact .fault _
    · exact agreeBut_dequeueInto d _ _
    · next bs later _ _ =>
      rw [lineAccepted_withRecords]
      split
      · exact agreeBut_dequeueInto d _ later
      · exact .refused _
  | noop => exact .quiet rfl

end

/-- Settles O47: the second state is the first with other records, and no instruction reads them. -/
theorem recordsAreNotRead : Obligations.RecordsAreNotRead := by
  intro i s s' h
  have hagree : AgreeBut s s' (exec i s) (exec i s') := by
    rw [withRecords_of_same h]
    exact agreeBut_exec i
  generalize exec i s = r, exec i s' = r' at hagree ⊢
  cases hagree with
  | next e same out out' => exact ⟨fun t ht => next_inj ht ▸ ⟨_, rfl, same, e, out, out'⟩, nofun, nofun⟩
  | fault f => exact ⟨nofun, fun _ h => h, nofun⟩
  | refused r => exact ⟨nofun, nofun, fun _ h => h⟩

/-! ### Loading -/

/-- The formula of a little-endian word (70_reset_and_hazards.md R114): the two halves share no bit, so joining them is
adding them. -/
theorem toNat_highByte_append (lo hi : Byte) : (hi ++ lo : Word).toNat = lo.toNat + 256 * hi.toNat := by
  rw [BitVec.toNat_append, ← Nat.shiftLeft_add_eq_or_of_lt lo.isLt, Nat.shiftLeft_eq]
  omega

/-- Word `k` of an image (70_reset_and_hazards.md R114). -/
theorem toNat_wordsOfBytes_getD : ∀ (bs : List Byte) (k : Nat), k < bs.length / 2 →
    ((wordsOfBytes bs).getD k 0).toNat = (bs.getD (2 * k) 0).toNat + 256 * (bs.getD (2 * k + 1) 0).toNat
  | [], k, h => absurd h (by simp)
  | [_], k, h => absurd h (by simp)
  | lo :: hi :: bs, 0, _ => toNat_highByte_append lo hi
  | lo :: hi :: bs, k + 1, h => by
    have hk : k < bs.length / 2 := by
      simp only [List.length_cons] at h
      omega
    exact toNat_wordsOfBytes_getD bs k hk

/-- Settles O51: the words of the image are written from 0 on, all of them below the end of memory. -/
theorem loadPutsImageAtZero : Obligations.LoadPutsImageAtZero := by
  intro image
  rw [loadImage, length_wordsOfBytes, memoryWords]
  refine ⟨fun hlen => ⟨writeWords [] 0 (wordsOfBytes image), by rw [if_pos hlen]; rfl, fun k hk => ?_, fun k hk => ?_⟩,
    fun hlen => if_neg (Nat.not_le.mpr hlen)⟩
  · have hmem : k < memoryWords := Nat.lt_of_lt_of_le hk hlen
    rw [readWord_writeWords, if_pos ⟨Nat.zero_le k, by rwa [length_wordsOfBytes, Nat.zero_add], hmem⟩]
    exact toNat_wordsOfBytes_getD image k hk
  · rw [readWord_writeWords, length_wordsOfBytes, if_neg (by omega), readWord_nil]

/-! ### Two instructions in a row -/

/-- Settles O52: `ret` pops the word that `call` pushed. -/
theorem callThenRetComesBack : Obligations.CallThenRetComesBack := by
  intro s a v ha hroom
  exact ⟨_, callInstruction.2.1 s a v ha hroom, rfl, retInstruction.2.1 _ _ _ rfl⟩

/-- Settles O53: the store is one word write, and the load reads the memory after it. -/
theorem storeThenLoad : Obligations.StoreThenLoad := by
  intro s t a b c dst addr addr' v d ha hb hr hstore hd hc hr'
  obtain ⟨m, hexec, hsame, hother⟩ := wmemInstruction.2.1 s a b addr v ha hb hr
  obtain rfl := next_inj (hexec.symm.trans hstore)
  refine ⟨_, rmemInstruction.2.1 _ dst c d addr' hd hc hr', ?_⟩
  rw [State.reg, Vector.getElem_set_self]
  split
  · next heq => rw [heq, hsame]
  · next hne => exact hother _ fun h => hne (BitVec.eq_of_toNat_eq h)

/-- Settles O54: the word stored is the whole of the instruction's words, so it is what stands at the next `pc`. -/
theorem storeIsFetched : Obligations.StoreIsFetched := by
  intro s t a b addr i hr hf ha hpc hlt hops hb h
  rw [step_of_decoded hr hf] at h
  obtain ⟨m, hexec, hsame, -⟩ := wmemInstruction.2.1 s a b addr _ ha hb hlt
  obtain rfl := next_inj (hexec.symm.trans h)
  have hwords : encode i = [BitVec.ofNat 16 i.opcode] := by rw [encode, hops]
  refine ⟨hpc.symm, stepRunsTheDecodedInstruction _ i hr ?_ ?_⟩
  · rw [hwords]
    exact hpc ▸ hlt
  · simp only [hwords, ← hpc]
    intro k hk
    obtain rfl : k = 0 := by simpa using hk
    exact hsame

end Sys2Proof
